-- ==== Sys2Proof/Word.lean ====
section
/-! DEFINITION. The two word types of the block: every memory cell and wire byte is 8 bits, the CRC register and the checksum are 16 bits (spec/00_scope.md R10). Indices and lengths are naturals (R10, `IDX_W`; spec/20_memory.md R51). -/

namespace Sys2Proof

/-- A memory cell or wire byte: `BYTE` = 8 bits (R10). -/
abbrev Byte := BitVec 8

/-- The CRC register, the checksum, a table entry: `CRC_W` = 16 bits (R10). -/
abbrev Half := BitVec 16

end Sys2Proof
end

