-- ==== Sys2Proof/Syntax.lean ====
section
/-! DEFINITION. The instructions: one constructor per row of spec/opcode_table.json (spec/30_encoding.md R83). -/

namespace Sys2Proof

/-- What a host read-out names: a numbered register `x[n]` or a cell of `OUT` (spec/45_session_control.md R195; spec/10_state.md R37). -/
inductive ReadSel where
  | reg (n : Nat)
  | out (a : Nat)
  deriving DecidableEq, Repr

/-- The rows of the opcode table, in the table's order. -/
inductive Instr where
  /-- `NOP`, command code `00` (R193). -/
  | nop
  /-- `DECODE`, command code `01` (R150, R159). -/
  | decode
  /-- `FULL_DECODE`, command code `10` (R180, R185). -/
  | fullDecode
  /-- The reserved command code `11` (R81, R194). -/
  | reservedCmd
  /-- Symbol `5A 01` (R74). -/
  | esc5B
  /-- Symbol `5A 02` (R74). -/
  | esc5A
  /-- Symbol `5E 01` (R74). -/
  | esc5D
  /-- Symbol `5E 02` (R74). -/
  | esc5E
  /-- A literal byte (R73, R75). -/
  | lit1 (b : Byte)
  /-- Encode lookup of `5B` (R104). -/
  | enc5B
  /-- Encode lookup of `5A` (R104). -/
  | enc5A
  /-- Encode lookup of `5D` (R104). -/
  | enc5D
  /-- Encode lookup of `5E` (R104). -/
  | enc5E
  /-- Encode lookup of any other byte (R104). -/
  | encNone (b : Byte)
  /-- Construct a session from a frame (R190). -/
  | load (frame : List Byte)
  /-- One step of the CRC Engine on the register `CRC` (R115). -/
  | crcUpd (b : Byte)
  /-- Checksum extraction and payload bounds (R130 to R135). -/
  | csx
  /-- Host read-out (R195). -/
  | readOut (sel : ReadSel)
  deriving DecidableEq, Repr

end Sys2Proof
end

