-- ==== Sys2Proof/WellFormed.lean ====
section
/-! DEFINITION. Which terms of `Instr` stand for an operation of the block: `ENC_NONE` is the row of the bytes that have no escape sequence (spec/40_escape_table.md R104), and a read-out names a readable register, `x[1]` to `x[5]`, or a cell of `OUT` (spec/10_state.md R37). Every other term is well formed. -/

namespace Sys2Proof

/-- The four bytes that have an escape sequence (R100). -/
def isEscapable (b : Byte) : Bool := b == 0x5A || b == 0x5B || b == 0x5D || b == 0x5E

/-- A register the host may read: `x[1]` to `x[5]` (R37). -/
def ReadSel.readable : ReadSel → Bool
  | .reg n => 1 ≤ n && n ≤ 5
  | .out _ => true

/-- The term stands for an operation of the block. -/
def Instr.wellFormed : Instr → Bool
  | .nop | .decode | .fullDecode | .reservedCmd => true
  | .esc5B | .esc5A | .esc5D | .esc5E => true
  | .lit1 _ => true
  | .enc5B | .enc5A | .enc5D | .enc5E => true
  | .encNone b => !isEscapable b
  | .load _ => true
  | .crcUpd _ => true
  | .csx => true
  | .readOut sel => sel.readable

end Sys2Proof
end

