-- ==== Sys2Proof/Decode.lean ====
section
/-! DEFINITION. The decoder and the encoder (spec/30_encoding.md R73 to R83). Three decoders read bits in this block, each in a context of its own: the command port (R80, R192), the scanned region (R74, R75) and the encode lookup (R104); within a context the rows with a full mask are tried before the catch-all row (R83). -/

namespace Sys2Proof

/-- Where bits are decoded. -/
inductive Context where
  /-- A value written to `CMD` (R80). -/
  | command
  /-- The rest of a scanned region, next byte first (R73). -/
  | wire
  /-- The operand of `ESC_ENC` (R104). -/
  | encodeLookup
  deriving DecidableEq, Repr

/-- Why decoding refuses. The only bits no row takes are none at all (R77: there is no illegal symbol; R81: code `11` has a row). -/
inductive DecodeError where
  /-- No byte is left in this context. -/
  | noBits (c : Context)
  deriving DecidableEq, Repr

/-- The command rows, by the two-bit code (R80). -/
def commandOf (code : BitVec 2) : Instr :=
  if code = 0b00 then .nop
  else if code = 0b01 then .decode
  else if code = 0b10 then .fullDecode
  else .reservedCmd

/-- The `ESC2` rows, by the 16-bit window, first wire byte in bits 15:8 (R74). -/
def escSymbol (w : Half) : Option Instr :=
  if w = 0x5A01 then some .esc5B
  else if w = 0x5A02 then some .esc5A
  else if w = 0x5E01 then some .esc5D
  else if w = 0x5E02 then some .esc5E
  else none

/-- The `ENC1` rows, by the byte looked up (R104). -/
def encodeLookupOf (b : Byte) : Instr :=
  if b = 0x5B then .enc5B
  else if b = 0x5A then .enc5A
  else if b = 0x5D then .enc5D
  else if b = 0x5E then .enc5E
  else .encNone b

/-- One symbol of a scanned region: `ESC2` if two bytes remain and match, else `LIT1` (R75). -/
def symbolOf (b0 : Byte) : List Byte → Instr × List Byte
  | [] => (.lit1 b0, [])
  | b1 :: rest =>
    match escSymbol (b0 ++ b1) with
    | some i => (i, rest)
    | none => (.lit1 b0, b1 :: rest)

/-- The instruction that begins with a byte, and the bytes after it. Bits of a command above bit 1 are ignored (R192). -/
def decodeFront (c : Context) (b : Byte) (rest : List Byte) : Instr × List Byte :=
  match c with
  | .command => (commandOf (b.setWidth 2), rest)
  | .wire => symbolOf b rest
  | .encodeLookup => (encodeLookupOf b, rest)

/-- The instruction at the front of some bytes and the bytes after it, total on any bytes. -/
def decode (c : Context) : List Byte → Except DecodeError (Instr × List Byte)
  | [] => .error (.noBits c)
  | b :: rest => .ok (decodeFront c b rest)

/-- The bytes of an instruction and the context they are decoded in; `none` for the four operations that have no bit pattern (R83). -/
def encode : Instr → Option (Context × List Byte)
  | .nop => some (.command, [0b00])
  | .decode => some (.command, [0b01])
  | .fullDecode => some (.command, [0b10])
  | .reservedCmd => some (.command, [0b11])
  | .esc5B => some (.wire, [0x5A, 0x01])
  | .esc5A => some (.wire, [0x5A, 0x02])
  | .esc5D => some (.wire, [0x5E, 0x01])
  | .esc5E => some (.wire, [0x5E, 0x02])
  | .lit1 b => some (.wire, [b])
  | .enc5B => some (.encodeLookup, [0x5B])
  | .enc5A => some (.encodeLookup, [0x5A])
  | .enc5D => some (.encodeLookup, [0x5D])
  | .enc5E => some (.encodeLookup, [0x5E])
  | .encNone b => some (.encodeLookup, [b])
  | .load _ | .crcUpd _ | .csx | .readOut _ => none

/-- The context a table word of one byte is read in. The table gives the same eight bits to rows of three contexts; the model reads the four command codes as commands, the four escapable bytes as encode lookups and every other byte as a literal of the wire. DESIGN CHOICE (log 18). -/
def tableContext (w : Nat) : Context :=
  if w < 4 then .command
  else if isEscapable (BitVec.ofNat 8 w) then .encodeLookup
  else .wire

/-- The bytes of a table word, in the order the hardware holds them, and their context. A 16-bit word is a window with its first wire byte in bits 15:8 (R74). -/
def tableBytes (nbits w : Nat) : Option (Context × List Byte) :=
  if nbits = 0 then none
  else if nbits < 8 then some (.command, [BitVec.ofNat 8 w])
  else if nbits = 8 then some (tableContext w, [BitVec.ofNat 8 w])
  else if nbits = 16 then some (.wire, [BitVec.ofNat 8 (w / 256), BitVec.ofNat 8 w])
  else none

/-- The instruction the decoder reads from a word of the opcode table. -/
def decodeTableWord (nbits w : Nat) : Option Instr :=
  match tableBytes nbits w with
  | none => none
  | some (c, bs) =>
    match decode c bs with
    | .ok (i, _) => some i
    | .error _ => none

end Sys2Proof
end

