-- ==== Sys2Proof/Config.lean ====
section
/-! DEFINITION. What an implementation fixes (spec/00_scope.md R10: `CRC_TABLE`, `MAX_LEN`, `MODE_AFTER_FULL`, `START`, `END`, `MIN_LEN`, `CRC_INIT`) and the free values: opaque constants no proof can evaluate (spec/10_state.md R41, spec/93_implementation_defined.md U5, U9, U10). -/

namespace Sys2Proof

/-- The mode flag's two values (spec/10_state.md R29: an explicit two-variant tag). -/
inductive Mode where
  | raw
  | decoded
  deriving DecidableEq, Repr

/-- The model's arguments (R10). DESIGN CHOICE (log 1): State carries them in its field `cfg`, so that a statement about every state is one about every table and every capacity. -/
structure Config where
  /-- `CRC_TABLE`: 256 entries of 16 bits (spec/41_crc_engine.md R117). -/
  crcTable : { t : List Half // t.length = 256 }
  /-- `MAX_LEN`: a natural of at least 5, or unbounded (`none`). -/
  maxLen : Option { n : Nat // 5 ≤ n }
  /-- `MODE_AFTER_FULL`: the mode `FULL_DECODE` writes (spec/44_full_decode.md R184). -/
  modeAfterFull : Mode
  deriving DecidableEq, Repr

/-- `CRC_INIT`, the seed of the CRC register (R10, spec/41_crc_engine.md R119). -/
def crcInit : Half := 0xFFFF

/-- `START`, the start marker a well-formed encoder sends; the block never checks it (R10). -/
def startMarker : Byte := 0x5B

/-- `END`, the terminator a well-formed encoder sends; the block never checks it (R10). -/
def endMarker : Byte := 0x5D

/-- `MIN_LEN`, the least length `DECODE` accepts (R10; spec/90_conflicts.md C6). -/
def minLen : Nat := 5

/-- The places whose content the spec leaves without a value (spec/10_state.md R41; spec/93 U5, U9, U10). -/
inductive FreeSite where
  | parsed | valid | outLen | escLen | payLen | hi | lo
  | crc | mode
  | out (a : Nat)
  deriving DecidableEq, Repr

/-- A free value of `w` bits for the `draw`-th draw at a site. It has no body: nothing can be proved of it. -/
opaque Config.freeBits (draw : Nat) (site : FreeSite) (w : Nat) : BitVec w

/-- A free natural for an index-width register, before it is cut to the register's width. -/
opaque Config.freeNat (draw : Nat) (site : FreeSite) : Nat

end Sys2Proof
end

