-- ==== Sys2Proof/Machine/State.lean ====
section
/-! DEFINITION. The state of the block as plain data (spec/10_state.md R20 to R41), the reasons a step can stop, and the state after reset (R40; spec/70_reset_and_hazards.md R270). -/

namespace Sys2Proof.Machine

/-- A byte memory: the cells that hold a value, by strictly rising index. An unlisted index reads as no value (log 6, log 7). -/
abbrev Memory := List Host.Cell

/-- `STATE`, the session lifecycle (R30). -/
inductive Status where
  | fresh
  | done
  | fault
  | busy
  deriving DecidableEq, Repr

/-- The phases of the step-wise automaton (spec/43_decode.md R160). -/
inductive Phase where
  /-- `P_ADMIT`: no command is in progress, the next one issued is admitted or not. -/
  | admission
  /-- `P_CSX`: checksum extraction is next. -/
  | csx
  /-- `P_SCAN`: a scan step is next. -/
  | scan
  /-- `P_ASM`: output assembly, or the completion of `FULL_DECODE`, is next. -/
  | asm
  deriving DecidableEq, Repr

/-- Which command's scan the registers `I` and `O` belong to: it selects the scan base, the scan length and whether `emit` feeds the CRC (R24, R25; spec/44_full_decode.md R181). -/
inductive ScanKind where
  | decode
  | full
  deriving DecidableEq, Repr

/-- Whether a command runs as one transition (R159) or as the automaton of R160. -/
inductive Grain where
  | atomic
  | stepwise
  deriving DecidableEq, Repr

/-- An operation the host has asked for and the block has not yet performed. -/
inductive Request where
  /-- `LOAD(frame)` (spec/45_session_control.md R190). -/
  | load (frame : List Byte)
  /-- `x[n] <- v` (R192). -/
  | write (n v : Nat)
  /-- A read-out (R195). -/
  | read (sel : ReadSel)
  /-- An encode lookup `ESC_ENC(b)` (spec/40_escape_table.md R104), log 21. -/
  | encode (b : Byte)
  deriving DecidableEq, Repr

/-- What a read-out or an encode lookup answered. -/
inductive Reply where
  /-- Nothing has been asked in this session. -/
  | none
  /-- `STATUS`, 8 bits. -/
  | status (v : BitVec 8)
  /-- An index-width register. -/
  | index (n : Nat)
  /-- A 16-bit register. -/
  | half (v : Half)
  /-- A cell of `OUT`. -/
  | byte (b : Byte)
  /-- `ESC_ENC` found the pair `(b0, b1)`. -/
  | escape (b0 b1 : Byte)
  /-- `ESC_ENC` found none. -/
  | noEscape
  deriving DecidableEq, Repr

/-- Everything the spec gives the block, and the model's own fields (`requests`, `reply`, `kind`, `grain`, `draws`; logs 5, 9, 11, 12, 19). -/
structure State where
  /-- The parameters of R10; no operation writes them (R35, R39). -/
  cfg : Config
  /-- `IN` (R33). -/
  inMem : Memory
  /-- `LEN` (R26). -/
  len : Nat
  /-- `OUT` (R34). -/
  outMem : Memory
  /-- `OUT_LEN` (R27). -/
  outLen : Nat
  /-- `CRC` (R21). -/
  crc : Half
  /-- `PARSED` (R22). -/
  parsed : Half
  /-- `VALID` (R28). -/
  valid : Bool
  /-- `MODE` (R29). -/
  mode : Mode
  /-- `STATE` (R30). -/
  status : Status
  /-- `FAULT_CODE` (R31). -/
  faultCode : BitVec 4
  /-- `ESC_LEN` (R23). -/
  escLen : BitVec 3
  /-- `PAY_LEN` (R23). -/
  payLen : Nat
  /-- `HI` (R36). -/
  hi : Byte
  /-- `LO` (R36). -/
  lo : Byte
  /-- `I`, the read index, the block's program counter (R24). -/
  i : Nat
  /-- `O`, the write index (R25). -/
  o : Nat
  /-- The phase of the automaton (R36, R160). -/
  phase : Phase
  /-- Which scan `I` and `O` belong to. -/
  kind : ScanKind
  /-- The host's operations not yet performed, oldest first. -/
  requests : List Request
  /-- What the last read-out or lookup answered. -/
  reply : Reply
  /-- One transition per command, or the automaton. -/
  grain : Grain
  /-- How many free draws have been made. -/
  draws : Nat
  deriving DecidableEq, Repr

/-- Why the model stops. No command admitted in a session that a `LOAD` constructed meets one (spec/20_memory.md R60). -/
inductive Fault where
  /-- The block reads `IN[a]` and `IN` has no such cell (R60). Raised by the reads of CSX, the scans and the assembly. Safe: the model stops. -/
  | inOutOfRange (a : Nat)
  /-- The block writes `OUT[a]` and `a` is not below the capacity `LEN` (R34, R60). Raised by the scan and the assembly. Safe: the model stops. -/
  | outOutOfRange (a : Nat)
  /-- CSX is run on a frame shorter than its precondition `LEN ≥ 5` (spec/42_checksum_extraction.md R130), which DECODE checks before. Safe: the model stops. -/
  | csxPrecondition (len : Nat)
  deriving DecidableEq, Repr

/-- What the model gives no meaning to. -/
inductive Refusal where
  /-- An instruction without a meaning, by the table's mnemonic. No arm answers it. Safe. -/
  | notModelled (mnemonic : String)
  /-- `x[n]` with `n ≥ 6` does not exist; R37: "a model refuses it". Raised by reads and writes. Safe. -/
  | noSuchRegister (n : Nat)
  /-- A read of `x[0]` (`CMD`), which is write only (R32, R37). Safe. -/
  | writeOnlyRegister (n : Nat)
  /-- A write of `x[1]` to `x[5]`, which are read only (R37). Safe. -/
  | readOnlyRegister (n : Nat)
  deriving DecidableEq, Repr

/-- Power-on: `LOAD` of the empty frame (R40, R270). The unwritten registers hold the free values of draw 0 (log 4); DESIGN CHOICE for the model's own fields (logs 5, 9, 11, 12, 19, 27). -/
def State.reset : State where
  cfg := defaultConfig
  inMem := []
  len := 0
  outMem := []
  outLen := Config.freeNat 0 .outLen
  crc := crcInit
  parsed := Config.freeBits 0 .parsed 16
  valid := (Config.freeBits 0 .valid 1).msb
  mode := .raw
  status := .fresh
  faultCode := 0
  escLen := Config.freeBits 0 .escLen 3
  payLen := Config.freeNat 0 .payLen
  hi := Config.freeBits 0 .hi 8
  lo := Config.freeBits 0 .lo 8
  i := 0
  o := 0
  phase := .admission
  kind := .decode
  requests := []
  reply := .none
  grain := .atomic
  draws := 1

end Sys2Proof.Machine
end

