-- ==== Sys2Proof/Machine/Ops.lean ====
section
/-! DEFINITION. The named operations over memory and registers, fault entry (spec/60_exceptions.md R245), and the construction of a session, which is the only way out of a fault (R249, spec/45_session_control.md R190). -/

namespace Sys2Proof.Machine

/-! ### Halves and bytes (spec/20_memory.md R52) -/

/-- `v[15:8]`. -/
def hiByte (v : Half) : Byte := v.extractLsb' 8 8

/-- `v[7:0]`. -/
def loByte (v : Half) : Byte := v.extractLsb' 0 8

/-- `HI ++ LO`, the high byte in bits 15:8. -/
def joinBytes (hi lo : Byte) : Half := hi ++ lo

/-! ### Byte memories -/

/-- What an index that lists no cell reads as: no value (log 6, log 7). -/
def Memory.unlisted : Option Byte := none

/-- The byte at an index. -/
def Memory.read : Memory → Nat → Option Byte
  | [], _ => Memory.unlisted
  | (a, b) :: m, k => if a = k then some b else Memory.read m k

/-- The memory with one byte written, in rising order of index. -/
def Memory.write : Memory → Nat → Byte → Memory
  | [], k, v => [(k, v)]
  | (a, b) :: m, k, v =>
    if k < a then (k, v) :: (a, b) :: m
    else if k = a then (k, v) :: m
    else (a, b) :: Memory.write m k v

/-- The canonical form: indices strictly rise, and no cell holds what an unlisted index reads as. -/
def Memory.wf : Memory → Bool
  | [] => true
  | [(_, b)] => some b != Memory.unlisted
  | (a, b) :: (a', b') :: m => a < a' && some b != Memory.unlisted && Memory.wf ((a', b') :: m)

/-- The memory that holds some bytes at `base`, `base + 1`, … -/
def Memory.ofBytesFrom : Nat → List Byte → Memory
  | _, [] => []
  | base, b :: bs => (base, b) :: Memory.ofBytesFrom (base + 1) bs

/-- The memory of a frame: byte `a` of the frame at index `a` (R51). -/
def Memory.ofBytes (bs : List Byte) : Memory := Memory.ofBytesFrom 0 bs

/-- `MemRead(S, a, n)` (spec/00_scope.md R12): the `n` bytes from `a`, lowest index first, where all of them are listed. -/
def Memory.readBytes (m : Memory) (a : Nat) : Nat → Option (List Byte)
  | 0 => some []
  | n + 1 =>
    match Memory.read m a, Memory.readBytes m (a + 1) n with
    | some b, some bs => some (b :: bs)
    | _, _ => none

/-- `MemWrite(S, a, n, v)` (R12): bytes written from `a`, in increasing order of index. -/
def Memory.writeBytes (m : Memory) (a : Nat) : List Byte → Memory
  | [] => m
  | b :: bs => Memory.writeBytes (Memory.write m a b) (a + 1) bs

/-! ### Outcomes -/

/-- The outcome of a step of this machine. -/
abbrev Out := Host.Outcome State Fault Refusal

/-- An operation that may meet a model fault, as an outcome. -/
def toOut : Except Fault State → Out
  | .ok s => .next s
  | .error f => .fault f

/-- Go on from a next state; a fault or a refusal stands. -/
def andThen (o : Out) (k : State → Out) : Out :=
  match o with
  | .next s => k s
  | .fault f => .fault f
  | .refused r => .refused r

/-! ### The block's accesses to `IN` and `OUT` -/

/-- The block reads `IN[a]` (spec/20_memory.md R55). -/
def readIn (s : State) (a : Nat) : Except Fault Byte :=
  match Memory.read s.inMem a with
  | some b => .ok b
  | none => .error (.inOutOfRange a)

/-- The block writes `OUT[a] <- b`; `OUT` has `LEN` cells (spec/10_state.md R34). -/
def writeOut (a : Nat) (b : Byte) (s : State) : Except Fault State :=
  if a < s.len then .ok { s with outMem := Memory.write s.outMem a b }
  else .error (.outOutOfRange a)

/-! ### Fault entry -/

/-- The block's four faults with the `info` their `raise` passes (spec/60_exceptions.md R241). -/
inductive Trap where
  | frameTooShort (len : Nat)
  | sessionReuse (st : Status)
  | reservedCommand (code : BitVec 2)
  | lenOverCapacity (len : Nat)
  deriving DecidableEq, Repr

/-- The code `FAULT_CODE` holds afterwards (R241). -/
def trapCode : Trap → BitVec 4
  | .frameTooShort _ => 1
  | .sessionReuse _ => 2
  | .reservedCommand _ => 3
  | .lenOverCapacity _ => 4

/-- `raise F(info)` (R245): unless the block is in `FAULT` already, `STATE` and `FAULT_CODE` are written and nothing else of the spec's state; the operation ends, so no phase is left over, and the free draws of the outputs become new ones (logs 5, 15). -/
def raise (t : Trap) (s : State) : State :=
  if s.status = .fault then s
  else { s with status := .fault, faultCode := trapCode t, phase := .admission, draws := s.draws + 1 }

/-- In `STATE = FAULT` a command is ignored (spec/60_exceptions.md R246; spec/45_session_control.md R192). -/
def unlessFault (s : State) (body : State → Out) : Out :=
  if s.status = .fault then .next s else body s

/-! ### Session construction -/

/-- The least width that holds `MAX_LEN`: `IDX_W` (spec/00_scope.md R10). -/
def idxWidth (m : Nat) : Nat := m.log2 + 1

/-- A free value of an index register: any natural, or any of `IDX_W` bits where `MAX_LEN` is bounded. -/
def freeIndex (cfg : Config) (draw : Nat) (site : FreeSite) : Nat :=
  match cfg.maxLen with
  | none => Config.freeNat draw site
  | some m => Config.freeNat draw site % 2 ^ idxWidth m.val

/-- A frame of `n` bytes is longer than the capacity (spec/45_session_control.md R191). -/
def overCapacity (cfg : Config) (n : Nat) : Bool :=
  match cfg.maxLen with
  | none => false
  | some m => m.val < n

/-- The session `LOAD(frame)` constructs (R190; spec/10_state.md R40): nothing of the previous one is left (spec/70_reset_and_hazards.md R272); the unwritten registers take free values of a new draw and the session's unspecified reads are answered from the one after it, so that neither repeats what an earlier read showed (R41; logs 4, 5). -/
def freshSession (frame : List Byte) (s : State) : State where
  cfg := s.cfg
  inMem := Memory.ofBytes frame
  len := frame.length
  outMem := []
  outLen := freeIndex s.cfg (s.draws + 1) .outLen
  crc := crcInit
  parsed := Config.freeBits (s.draws + 1) .parsed 16
  valid := (Config.freeBits (s.draws + 1) .valid 1).msb
  mode := .raw
  status := .fresh
  faultCode := 0
  escLen := Config.freeBits (s.draws + 1) .escLen 3
  payLen := freeIndex s.cfg (s.draws + 1) .payLen
  hi := Config.freeBits (s.draws + 1) .hi 8
  lo := Config.freeBits (s.draws + 1) .lo 8
  i := 0
  o := 0
  phase := .admission
  kind := .decode
  requests := s.requests
  reply := .none
  grain := s.grain
  draws := s.draws + 2

/-- Answer the host. -/
def answer (r : Reply) (s : State) : State := { s with reply := r }

end Sys2Proof.Machine
end

