-- ==== Sys2Proof/Machine/EscTable.lean ====
section
/-! DEFINITION. The Escape Table (spec/40_escape_table.md): `ESC`, `ESC_ENC`, and the pure functions of byte strings built on them, `SCAN` (spec/43_decode.md R153) and `STUFF` (spec/30_encoding.md R82). -/

namespace Sys2Proof.Machine

/-- `ESC(b0, b1)` (R101): the decoded byte and whether the window matched. -/
def esc (b0 b1 : Byte) : Byte × Bool :=
  if b0 = 0x5A ∧ b1 = 0x01 then (0x5B, true)
  else if b0 = 0x5A ∧ b1 = 0x02 then (0x5A, true)
  else if b0 = 0x5E ∧ b1 = 0x01 then (0x5D, true)
  else if b0 = 0x5E ∧ b1 = 0x02 then (0x5E, true)
  else (b0, false)

/-- `ESC_ENC(b)` (R104): the escape sequence of a byte, or none. -/
def escEnc (b : Byte) : Option (Byte × Byte) :=
  if b = 0x5B then some (0x5A, 0x01)
  else if b = 0x5A then some (0x5A, 0x02)
  else if b = 0x5D then some (0x5E, 0x01)
  else if b = 0x5E then some (0x5E, 0x02)
  else none

/-- `SCAN(w)` (spec/43_decode.md R153): the bytes the scan loop emits over `w`. -/
def scan : List Byte → List Byte
  | [] => []
  | [b] => [b]
  | b0 :: b1 :: rest => if (esc b0 b1).2 then (esc b0 b1).1 :: scan rest else b0 :: scan (b1 :: rest)

/-- The wire bytes of one byte (R82). -/
def stuffByte (b : Byte) : List Byte :=
  match escEnc b with
  | some (b0, b1) => [b0, b1]
  | none => [b]

/-- `STUFF(bytes)` (R82). -/
def stuff (p : List Byte) : List Byte := p.flatMap stuffByte

end Sys2Proof.Machine
end

