-- ==== Sys2Proof/Machine/CrcEngine.lean ====
section
/-! DEFINITION. The CRC Engine (spec/41_crc_engine.md): `CRC_UPD`, `CRC_RUN`, the update of the register `CRC`, and `FRAME` (spec/30_encoding.md R82), which needs them. -/

namespace Sys2Proof.Machine

/-- `T[k]` (spec/00_scope.md R12): an entry of `CRC_TABLE`. -/
def tableEntry (cfg : Config) (k : Byte) : Half :=
  cfg.crcTable.val[k.toNat]'(by rw [cfg.crcTable.property]; exact k.isLt)

/-- `CRC_UPD(c, b)` (R115): the register shifted left by 8, truncated, XOR the entry at `c[15:8] XOR b`. -/
def crcUpd (cfg : Config) (c : Half) (b : Byte) : Half :=
  (c <<< 8) ^^^ tableEntry cfg (hiByte c ^^^ b)

/-- `CRC_UPD` from a register over a byte string, in increasing order. -/
def crcFrom (cfg : Config) (c : Half) (bs : List Byte) : Half := bs.foldl (crcUpd cfg) c

/-- `CRC_RUN(bytes)` (R120): from the seed `FFFF`; no final XOR. -/
def crcRun (cfg : Config) (bs : List Byte) : Half := crcFrom cfg crcInit bs

/-- `CRC <- CRC_UPD(CRC, b)` (spec/43_decode.md R154). -/
def updateCrc (b : Byte) (s : State) : State := { s with crc := crcUpd s.cfg s.crc b }

/-- `FRAME(payload)` (spec/30_encoding.md R82): what a well-formed encoder sends. -/
def frameOf (cfg : Config) (p : List Byte) : List Byte :=
  let c := crcRun cfg p
  [startMarker] ++ stuff p ++ stuff [hiByte c, loByte c] ++ [endMarker]

/-- The meaning of `CRC_UPD` (R115): the register `CRC` takes one byte. -/
def execCrcUpd (b : Byte) (s : State) : Out := .next (updateCrc b s)

end Sys2Proof.Machine
end

