-- ==== Sys2Proof/Machine/Operands.lean ====
section
/-! DEFINITION. The operand forms: where a scan reads and writes (spec/10_state.md R24, R25), the two-byte window (R36), the bytes a symbol is decoded from (spec/30_encoding.md R75), and the reader view (R38). -/

namespace Sys2Proof.Machine

/-- The scan base: index 1 of `IN` and `OUT` for `DECODE`, index 0 for `FULL_DECODE` (R24, R25). -/
def scanBase (s : State) : Nat :=
  match s.kind with
  | .decode => 1
  | .full => 0

/-- The scan length: `PAY_LEN` for `DECODE`, `LEN` for `FULL_DECODE` (R24). -/
def scanLen (s : State) : Nat :=
  match s.kind with
  | .decode => s.payLen
  | .full => s.len

/-- The bytes the next symbol is decoded from: the byte at the read index, and the one after it if at least two remain in the scanned region (R75; spec/43_decode.md R153). -/
def fetchBytes (s : State) : Except Fault (Byte × List Byte) := do
  let b0 ← readIn s (scanBase s + s.i)
  if 2 ≤ scanLen s - s.i then
    let b1 ← readIn s (scanBase s + s.i + 1)
    return (b0, [b1])
  else
    return (b0, [])

/-- The current two-byte window (R36), where at least two bytes remain. -/
def window (s : State) : Option (Byte × Byte) :=
  match fetchBytes s with
  | .ok (b0, [b1]) => some (b0, b1)
  | _ => none

/-- The symbol at the read index, as the decoder cuts it; `IN` is the block's program text (spec/20_memory.md R54, R64). -/
def fetchSymbol (s : State) : Except Fault Instr := do
  let (b, rest) ← fetchBytes s
  return (decodeFront .wire b rest).1

/-- What a session hands to the consumer (R38; spec/45_session_control.md R197). -/
structure View where
  bytes : List Byte
  mode : Mode
  deriving DecidableEq, Repr

/-- `VIEW` (R38): the raw frame while `FRESH`, the output while `DONE`, none in `FAULT`; none while a command runs (R277). -/
def viewOf (s : State) : Option View :=
  match s.status with
  | .fresh => (Memory.readBytes s.inMem 0 s.len).map (⟨·, s.mode⟩)
  | .done => (Memory.readBytes s.outMem 0 s.outLen).map (⟨·, s.mode⟩)
  | .fault => none
  | .busy => none

end Sys2Proof.Machine
end

