-- ==== Sys2Proof/Machine/Flags.lean ====
section
/-! DEFINITION. The flags (spec/10_state.md R28, R29) and the status register (R37): the validity comparison, the completion of a command, the bit encodings, and what the host sees of them. -/

namespace Sys2Proof.Machine

/-- `VALID <- (CRC = PARSED)` (spec/43_decode.md R157). -/
def setValid (s : State) : State := { s with valid := s.crc == s.parsed }

/-- The completion of a command: `MODE`, `STATE <- DONE` (R158; spec/44_full_decode.md R184). -/
def complete (m : Mode) (s : State) : State := { s with mode := m, status := .done, phase := .admission }

/-- `MODE`: raw 0, decoded 1 (R29). -/
def modeBit : Mode → BitVec 1
  | .raw => 0
  | .decoded => 1

/-- `STATE`: FRESH 0, DONE 1, FAULT 2, BUSY 3 (R30). -/
def statusCode : Status → BitVec 2
  | .fresh => 0
  | .done => 1
  | .fault => 2
  | .busy => 3

/-- `VALID`: 1 is true (spec/92_eei_decisions.md D2). -/
def validBit (v : Bool) : BitVec 1 := if v then 1 else 0

/-- The bit of `STATUS` that shows `VALID`: the flag in `DONE`, a free value elsewhere (log 13). -/
def shownValid (s : State) : BitVec 1 :=
  if s.status = .done then validBit s.valid else Config.freeBits s.draws .valid 1

/-- The bit of `STATUS` that shows `MODE`: the flag, but a free value in `FAULT` (spec/60_exceptions.md R245, log 13). -/
def shownMode (s : State) : BitVec 1 :=
  if s.status = .fault then Config.freeBits s.draws .mode 1 else modeBit s.mode

/-- `STATUS` (R37): `[7:4] FAULT_CODE`, `[3] VALID`, `[2] MODE`, `[1:0] STATE`. -/
def statusWord (s : State) : BitVec 8 :=
  s.faultCode ++ shownValid s ++ shownMode s ++ statusCode s.status

end Sys2Proof.Machine
end

