-- ==== Sys2Proof/Machine/Csx.lean ====
section
/-! DEFINITION. Frame boundary and checksum extraction, CSX (spec/42_checksum_extraction.md). -/

namespace Sys2Proof.Machine

/-- The checksum field as extracted: its two bytes and how many wire bytes it takes (spec/30_encoding.md R72). -/
structure ChecksumField where
  hi : Byte
  lo : Byte
  escLen : BitVec 3
  deriving DecidableEq, Repr

/-- The two windows, from the end of the frame backwards (R131, R132, R133). The second window is read only when the first matches. -/
def checksumField (s : State) : Except Fault ChecksumField := do
  let c ← readIn s (s.len - 3)
  let d ← readIn s (s.len - 2)
  if (esc c d).2 then
    let a ← readIn s (s.len - 5)
    let b ← readIn s (s.len - 4)
    if (esc a b).2 then return ⟨(esc a b).1, (esc c d).1, 4⟩
    else return ⟨b, (esc c d).1, 3⟩
  else return ⟨c, d, 2⟩

/-- Write `HI`, `LO`, `ESC_LEN` and `PARSED = HI ++ LO` (R134). -/
def storeChecksum (f : ChecksumField) (s : State) : State :=
  { s with hi := f.hi, lo := f.lo, escLen := f.escLen, parsed := joinBytes f.hi f.lo }

/-- Write `PAY_LEN = LEN - ESC_LEN - 2`, or raise `FrameTooShort` where that is negative (R135). -/
def storePayLen (s : State) : State :=
  if s.len < s.escLen.toNat + 2 then raise (.frameTooShort s.len) s
  else { s with payLen := s.len - s.escLen.toNat - 2 }

/-- CSX: extraction, then the payload bounds (R130 to R135). -/
def csx (s : State) : Except Fault State :=
  if s.len < minLen then .error (.csxPrecondition s.len)
  else do
    let f ← checksumField s
    return storePayLen (storeChecksum f s)

/-- The meaning of `CSX`. -/
def execCsx (s : State) : Out := toOut (csx s)

end Sys2Proof.Machine
end

