-- ==== Sys2Proof/Machine/Symbols.lean ====
section
/-! DEFINITION. The symbols of a scanned region: one scan step each (spec/43_decode.md R153, R154; spec/44_full_decode.md R181). -/

namespace Sys2Proof.Machine

/-- `emit(b)` (R154; R181 without the CRC): store the byte, feed the CRC in `DECODE`, count it. -/
def emit (b : Byte) (s : State) : Except Fault State := do
  let s ← writeOut (scanBase s + s.o) b s
  let s := match s.kind with
    | .decode => updateCrc b s
    | .full => s
  return { s with o := s.o + 1 }

/-- `I <- I + n`. -/
def advance (n : Nat) (s : State) : State := { s with i := s.i + n }

/-- One scan step that emits `b` and consumes `n` wire bytes. -/
def symbolStep (b : Byte) (n : Nat) (s : State) : Except Fault State := do
  let s ← emit b s
  return advance n s

/-- `5A 01` emits `5B` and advances 2. -/
def execEsc5B (s : State) : Out := toOut (symbolStep 0x5B 2 s)

/-- `5A 02` emits `5A` and advances 2. -/
def execEsc5A (s : State) : Out := toOut (symbolStep 0x5A 2 s)

/-- `5E 01` emits `5D` and advances 2. -/
def execEsc5D (s : State) : Out := toOut (symbolStep 0x5D 2 s)

/-- `5E 02` emits `5E` and advances 2. -/
def execEsc5E (s : State) : Out := toOut (symbolStep 0x5E 2 s)

/-- A literal emits itself and advances 1. -/
def execLit1 (b : Byte) (s : State) : Out := toOut (symbolStep b 1 s)

end Sys2Proof.Machine
end

