-- ==== Sys2Proof/Machine/EncodeLookup.lean ====
section
/-! DEFINITION. The encode-direction lookups (spec/40_escape_table.md R104). A pure function: the answer goes to `reply`, no state of the block changes (log 21). -/

namespace Sys2Proof.Machine

/-- `ESC_ENC(b)`, answered. -/
def encodeLookup (b : Byte) (s : State) : Out :=
  match escEnc b with
  | some (b0, b1) => .next (answer (.escape b0 b1) s)
  | none => .next (answer .noEscape s)

/-- The row of `5B`. -/
def execEnc5B (s : State) : Out := encodeLookup 0x5B s

/-- The row of `5A`. -/
def execEnc5A (s : State) : Out := encodeLookup 0x5A s

/-- The row of `5D`. -/
def execEnc5D (s : State) : Out := encodeLookup 0x5D s

/-- The row of `5E`. -/
def execEnc5E (s : State) : Out := encodeLookup 0x5E s

/-- The row of every other byte. -/
def execEncNone (b : Byte) (s : State) : Out := encodeLookup b s

end Sys2Proof.Machine
end

