-- ==== Sys2Proof/Machine/Commands.lean ====
section
/-! DEFINITION. The commands `NOP`, `DECODE`, `FULL_DECODE` and the reserved code (spec/43_decode.md, spec/44_full_decode.md, spec/45_session_control.md R192 to R194). -/

namespace Sys2Proof.Machine

/-- The start of the scan of `DECODE`: the start byte is copied, `I <- 0`, `O <- 0` (R152). -/
def beginDecode (s : State) : Except Fault State := do
  let b ← readIn s 0
  let s ← writeOut 0 b s
  return { s with i := 0, o := 0, kind := .decode }

/-- The start of the scan of `FULL_DECODE`: `I <- 0`, `O <- 0` (R185). -/
def beginFull (s : State) : State := { s with i := 0, o := 0, kind := .full }

/-- One scan step (R153 with base 1, R181 with base 0): the window is tried only where two bytes remain in the region. -/
def scanStep (s : State) : Except Fault State := do
  let b0 ← readIn s (scanBase s + s.i)
  if 2 ≤ scanLen s - s.i then
    let b1 ← readIn s (scanBase s + s.i + 1)
    if (esc b0 b1).2 then symbolStep (esc b0 b1).1 2 s
    else symbolStep b0 1 s
  else symbolStep b0 1 s

/-- The loop `while I < scan length`. Every step advances `I`, so the scan length is fuel enough (R155). -/
def scanLoop : Nat → State → Except Fault State
  | 0, s => .ok s
  | n + 1, s => if s.i < scanLen s then scanStep s >>= scanLoop n else .ok s

/-- The output assembly of `DECODE`: the computed checksum, high byte first, and the terminator (R156), then the validity flag (R157) and completion (R158). -/
def assembleDecode (s : State) : Except Fault State := do
  let s ← writeOut (1 + s.o) (hiByte s.crc) s
  let s ← writeOut (2 + s.o) (loByte s.crc) s
  let e ← readIn s (s.len - 1)
  let s ← writeOut (3 + s.o) e s
  return complete .decoded (setValid { s with outLen := s.o + 4 })

/-- The completion of `FULL_DECODE` (R183, R184). -/
def assembleFull (s : State) : State := complete s.cfg.modeAfterFull { s with outLen := s.o }

/-- The assembly of the scan that has ended. -/
def assemble (s : State) : Except Fault State :=
  match s.kind with
  | .decode => assembleDecode s
  | .full => .ok (assembleFull s)

/-- `DECODE` after its admission, as one operation (R159): CSX, and unless that raised, the scan and the assembly. -/
def decodeRun (s : State) : Except Fault State := do
  let s ← csx s
  if s.status = .fault then return s
  else
    let s ← beginDecode s
    let s ← scanLoop (scanLen s) s
    assemble s

/-- `FULL_DECODE` after its admission, as one operation (R185). -/
def fullRun (s : State) : Except Fault State := do
  let s := beginFull s
  let s ← scanLoop (scanLen s) s
  assemble s

/-- `P_ADMIT` passed: `STATE <- BUSY`, and the automaton goes on in the phase given (R160). -/
def enterBusy (p : Phase) (s : State) : State := { s with status := .busy, phase := p }

/-- The meaning of `NOP` (R193): nothing, in every `STATE`. -/
def execNop (s : State) : Out := .next s

/-- The meaning of `DECODE`: ignored in `FAULT` (R246), the two checks of R151 in their order, then the operation, as one transition (R159) or as the automaton's first step (R160). -/
def execDecode (s : State) : Out :=
  unlessFault s fun s =>
    if s.status ≠ .fresh then .next (raise (.sessionReuse s.status) s)
    else if s.len < minLen then .next (raise (.frameTooShort s.len) s)
    else
      match s.grain with
      | .atomic => toOut (decodeRun s)
      | .stepwise => .next (enterBusy .csx s)

/-- The meaning of `FULL_DECODE`: ignored in `FAULT` (R246), the one check of R182, then the operation (R185) or the automaton's admission step. -/
def execFullDecode (s : State) : Out :=
  unlessFault s fun s =>
    if s.status ≠ .fresh then .next (raise (.sessionReuse s.status) s)
    else
      match s.grain with
      | .atomic => toOut (fullRun s)
      | .stepwise => .next (enterBusy .scan (beginFull s))

/-- The meaning of the reserved code (R194): raised before any lifecycle check; nothing in `FAULT`. -/
def execReservedCmd (s : State) : Out :=
  unlessFault s fun s => .next (raise (.reservedCommand 0b11) s)

end Sys2Proof.Machine
end

