-- ==== Sys2Proof/Machine/Session.lean ====
section
/-! DEFINITION. Session construction and read-out (spec/45_session_control.md R190, R191, R195), and how a request of the host becomes an instruction (R192; spec/10_state.md R37). -/

namespace Sys2Proof.Machine

/-- The meaning of `LOAD(frame)`: a new session (R190), or `LenOverCapacity` (R191). -/
def execLoad (frame : List Byte) (s : State) : Out :=
  if overCapacity s.cfg frame.length then .next (raise (.lenOverCapacity frame.length) s)
  else .next (freshSession frame s)

/-- `OUT_LEN` as the host reads it: the register in `DONE`, else a free value (R195, log 13). -/
def shownOutLen (s : State) : Nat :=
  if s.status = .done then s.outLen else freeIndex s.cfg s.draws .outLen

/-- `CRC` as the host reads it (R195, log 13). -/
def shownCrc (s : State) : Half :=
  if s.status = .done then s.crc else Config.freeBits s.draws .crc 16

/-- `PARSED` as the host reads it (R195, log 13). -/
def shownParsed (s : State) : Half :=
  if s.status = .done then s.parsed else Config.freeBits s.draws .parsed 16

/-- `OUT[a]` as the host reads it: the cell in `DONE` for `a < OUT_LEN`, else a free value (R195). -/
def shownOut (s : State) (a : Nat) : Byte :=
  if s.status = .done ∧ a < s.outLen then
    (Memory.read s.outMem a).getD (Config.freeBits s.draws (.out a) 8)
  else Config.freeBits s.draws (.out a) 8

/-- What a read-out answers (R37, R195). -/
def readOut (sel : ReadSel) (s : State) : Except Refusal Reply :=
  match sel with
  | .reg 0 => .error (.writeOnlyRegister 0)
  | .reg 1 => .ok (.status (statusWord s))
  | .reg 2 => .ok (.index s.len)
  | .reg 3 => .ok (.index (shownOutLen s))
  | .reg 4 => .ok (.half (shownCrc s))
  | .reg 5 => .ok (.half (shownParsed s))
  | .reg n => .error (.noSuchRegister n)
  | .out a => .ok (.byte (shownOut s a))

/-- The meaning of `READ_OUT` (R195): the answer goes to the host, no state of the block changes. -/
def execReadOut (sel : ReadSel) (s : State) : Out :=
  match readOut sel s with
  | .ok r => .next (answer r s)
  | .error e => .refused e

/-- The instruction a request stands for. A write of `CMD` goes through the decoder, which ignores the bits above bit 1 (R192). -/
def requestInstr : Request → Except Refusal Instr
  | .load frame => .ok (.load frame)
  | .write 0 v => .ok (decodeFront .command (BitVec.ofNat 8 v) []).1
  | .write n _ => if n ≤ 5 then .error (.readOnlyRegister n) else .error (.noSuchRegister n)
  | .read sel => .ok (.readOut sel)
  | .encode b => .ok (decodeFront .encodeLookup b []).1

end Sys2Proof.Machine
end

