-- ==== Sys2Proof/Machine/Automaton.lean ====
section
/-! DEFINITION. What the step-wise automaton does around an instruction (spec/43_decode.md R160), and where a word of the opcode table is put for the next step to fetch it (log 10). -/

namespace Sys2Proof.Machine

/-- The rest of the `P_CSX` row of R160, after CSX: if CSX raised, the command is over; else the start byte is copied and the scan begins. -/
def afterCsx (s : State) : Out :=
  if s.status = .fault then .next s
  else andThen (toOut (beginDecode s)) fun s => .next { s with phase := .scan }

/-- The next phase after a scan step: `P_SCAN` while `I` is below the scan length, else `P_ASM` (R160). -/
def afterSymbol (s : State) : Out :=
  .next { s with phase := if s.i < scanLen s then .scan else .asm }

/-- The `P_SCAN` row of R160 where no wire byte is left: only the phase moves on. -/
def scanOver (s : State) : Out := .next { s with phase := .asm }

/-- The `P_ASM` row of R160. -/
def stepAsm (s : State) : Out := toOut (assemble s)

/-- Bytes placed for the next step to fetch: a command or a lookup as the host's next request; a symbol as a frame that a full scan has just begun to read. -/
def placeWord (c : Context) (bs : List Byte) (s : State) : State :=
  match c, bs with
  | .command, b :: _ => { s with phase := .admission, requests := .write 0 b.toNat :: s.requests }
  | .encodeLookup, b :: _ => { s with phase := .admission, requests := .encode b :: s.requests }
  | .wire, bs =>
    { s with inMem := Memory.ofBytes bs, len := bs.length, status := .busy, phase := .scan, kind := .full, i := 0, o := 0 }
  | _, [] => s

end Sys2Proof.Machine
end

