-- ==== Sys2Proof/Machine/Dispatch.lean ====
section
/-! DEFINITION. One arm per instruction. -/

namespace Sys2Proof.Machine

open Sys2Proof

def exec (i : Instr) (s : State) : Host.Outcome State Fault Refusal :=
  match i with
  | .nop => Sys2Proof.Machine.execNop s
  | .decode => Sys2Proof.Machine.execDecode s
  | .fullDecode => Sys2Proof.Machine.execFullDecode s
  | .reservedCmd => Sys2Proof.Machine.execReservedCmd s
  | .esc5B => Sys2Proof.Machine.execEsc5B s
  | .esc5A => Sys2Proof.Machine.execEsc5A s
  | .esc5D => Sys2Proof.Machine.execEsc5D s
  | .esc5E => Sys2Proof.Machine.execEsc5E s
  | .lit1 b => Sys2Proof.Machine.execLit1 b s
  | .enc5B => Sys2Proof.Machine.execEnc5B s
  | .enc5A => Sys2Proof.Machine.execEnc5A s
  | .enc5D => Sys2Proof.Machine.execEnc5D s
  | .enc5E => Sys2Proof.Machine.execEnc5E s
  | .encNone b => Sys2Proof.Machine.execEncNone b s
  | .load frame => Sys2Proof.Machine.execLoad frame s
  | .crcUpd b => Sys2Proof.Machine.execCrcUpd b s
  | .csx => Sys2Proof.Machine.execCsx s
  | .readOut sel => Sys2Proof.Machine.execReadOut sel s

end Sys2Proof.Machine
end

