-- ==== Sys2Proof/Machine/Step.lean ====
section
/-! DEFINITION. One step: the host's next request where no command is in progress, else the automaton's next step (spec/43_decode.md R160). While a command is in progress the host has no move (spec/70_reset_and_hazards.md R277). -/

namespace Sys2Proof.Machine

/-- One step of the block. With no command in progress and nothing asked, the block stays as it is. -/
def step (s : State) : Host.Outcome State Fault Refusal :=
  match s.phase with
  | .admission =>
    match s.requests with
    | [] => .next s
    | r :: rest =>
      match requestInstr r with
      | .ok i => exec i { s with requests := rest }
      | .error e => .refused e
  | .csx => andThen (exec .csx s) afterCsx
  | .scan =>
    if s.i < scanLen s then
      match fetchSymbol s with
      | .ok i => andThen (exec i s) afterSymbol
      | .error f => .fault f
    else scanOver s
  | .asm => stepAsm s

/-- The state in which the next step fetches and runs a word of the opcode table (log 10). -/
def State.withFetchWord (s : State) (nbits w : Nat) : State :=
  match Sys2Proof.tableBytes nbits w with
  | some (c, bs) => placeWord c bs s
  | none => s

end Sys2Proof.Machine
end

