-- ==== Sys2Proof/Machine/Consumer.lean ====
section
/-! DEFINITION. The consumer of the block's outputs (spec/48_cursor_reader_consumer.md): the Cursor Reader's operations that the spec determines, as pure functions over a reader record. Outside the block (spec/00_scope.md R8): no step calls them and State holds nothing of them (spec/10_state.md R43; log 24). -/

namespace Sys2Proof.Machine

/-- What a read sees (R205): the cursor, which is the reader's own, and what the session shows at the moment of the read, which is not: `Reader.follow` renews it when the session changes (R206). -/
structure Reader where
  view : List Byte
  cur : Nat
  mode : Mode
  computed : Half
  parsed : Half
  valid : Bool
  deriving DecidableEq, Repr

/-- Why a read gives nothing. -/
inductive ReaderError where
  /-- More bytes are asked for than remain (R225). -/
  | outOfBounds
  /-- `read_big_number` of more than 8 bytes (R209). -/
  | unsupportedWidth
  /-- A case the spec leaves without an answer (spec/91_not_in_source.md N10). -/
  | unspecified
  deriving DecidableEq, Repr

/-- The Cursor Reader with its cursor at `cur`, as the session shows it now: the view and the mode are the session's (R206, "a view, not a copy"; spec/10_state.md R38), and so are the checksums and the flag (R205). None where the session has no view. -/
def readerAt (cur : Nat) (s : State) : Option Reader :=
  (viewOf s).map fun v => ⟨v.bytes, cur, v.mode, shownCrc s, shownParsed s, (shownValid s).msb⟩

/-- Hand-over (spec/45_session_control.md R197): the cursor starts at the first byte (spec/70_reset_and_hazards.md R273). -/
def openReader (s : State) : Option Reader := readerAt 0 s

/-- The view that stood before some steps still stands after them: no decode, `LOAD` or fault came between. `draws` counts the last two. -/
def viewStands (before after : State) : Bool := before.status == after.status && before.draws == after.draws

/-- A reader held while the block goes from `before` to `after` (R206): its view is the session's, so after a decode it shows `OUT` (spec/10_state.md R38). Where the view was replaced the spec does not say where the cursor is (R43, R206), and `moved` is any function; DESIGN CHOICE (log 30) for a reader already open at a `LOAD` or a fault, of which the spec is silent: it shows the new session's frame, and in `FAULT`, where R38 has no view, nothing. -/
def Reader.follow (moved : Nat → Nat) (before after : State) (r : Reader) : Option Reader :=
  readerAt (if viewStands before after then r.cur else moved r.cur) after

/-- The next `n` bytes, without moving; past the end of the view out of bounds, as R225 says of reads (log 32). -/
def Reader.peek (n : Nat) (r : Reader) : Except ReaderError (List Byte) :=
  if r.cur + n ≤ r.view.length then .ok ((r.view.drop r.cur).take n) else .error .outOfBounds

/-- A consuming read of `n` bytes: `read_array(len)` (R210). -/
def Reader.readArray (n : Nat) (r : Reader) : Except ReaderError (List Byte × Reader) :=
  (r.peek n).map fun bs => (bs, { r with cur := r.cur + n })

/-- Bytes combined most significant first (R208). -/
def bigEndian (bs : List Byte) : Nat := bs.foldl (fun n b => n * 256 + b.toNat) 0

/-- An unsigned integer of `n` bytes, big-endian. -/
def Reader.readWord (n : Nat) (r : Reader) : Except ReaderError (BitVec (8 * n) × Reader) :=
  (r.readArray n).map fun (bs, r) => (BitVec.ofNat (8 * n) (bigEndian bs), r)

/-- The unsigned 16-bit integer (R208). -/
def Reader.readU16 (r : Reader) : Except ReaderError (BitVec 16 × Reader) := r.readWord 2

/-- The unsigned 32-bit integer (R208). -/
def Reader.readU32 (r : Reader) : Except ReaderError (BitVec 32 × Reader) := r.readWord 4

/-- The unsigned 64-bit integer (R208). -/
def Reader.readU64 (r : Reader) : Except ReaderError (BitVec 64 × Reader) := r.readWord 8

/-- The signed 32-bit integer (R208), as two's complement (spec/93_implementation_defined.md G3). -/
def Reader.readSigned32 (r : Reader) : Except ReaderError (Int × Reader) :=
  (r.readU32).map fun (v, r) => (v.toInt, r)

/-- An unsigned integer of `n` bytes, without moving. -/
def Reader.peekWord (n : Nat) (r : Reader) : Except ReaderError (BitVec (8 * n)) :=
  (r.peek n).map fun bs => BitVec.ofNat (8 * n) (bigEndian bs)

/-- The peeks of R220: byte, 16, 32 and 64 bits. -/
def Reader.peekU8 (r : Reader) : Except ReaderError Byte := r.peekWord 1

/-- Peek of 16 bits. -/
def Reader.peekU16 (r : Reader) : Except ReaderError (BitVec 16) := r.peekWord 2

/-- Peek of 32 bits. -/
def Reader.peekU32 (r : Reader) : Except ReaderError (BitVec 32) := r.peekWord 4

/-- Peek of 64 bits. -/
def Reader.peekU64 (r : Reader) : Except ReaderError (BitVec 64) := r.peekWord 8

/-- `read_big_number(len)` (R209). -/
def Reader.readBigNumber (n : Nat) (r : Reader) : Except ReaderError (String × Reader) :=
  if n ≤ 8 then (r.readArray n).map fun (bs, r) => (Nat.repr (bigEndian bs), r)
  else .error .unsupportedWidth

/-- One hexadecimal digit; the case of the letters is an argument, for the source gives none (log 24). -/
def hexDigit (upper : Bool) (n : BitVec 4) : Char :=
  if n.toNat ≤ 9 then Char.ofNat (48 + n.toNat) else Char.ofNat ((if upper then 55 else 87) + n.toNat)

/-- A byte as two hexadecimal digits, high nibble first (R214). -/
def hexPair (upper : Bool) (b : Byte) : List Char :=
  [hexDigit upper (b.extractLsb' 4 4), hexDigit upper (b.extractLsb' 0 4)]

/-- `read_bcd(len)` (R214): `len` nibbles rendered as hexadecimal digits, leading `'0'` characters stripped. An odd `len` is not specified (spec/93_implementation_defined.md U16). -/
def Reader.readBcd (upper : Bool) (n : Nat) (r : Reader) : Except ReaderError (String × Reader) :=
  if n % 2 = 0 then
    (r.readArray (n / 2)).map fun (bs, r) => (String.ofList ((bs.flatMap (hexPair upper)).dropWhile (· == '0')), r)
  else .error .unspecified

/-- `skip(count)`, one byte where no count is given (R223). DESIGN CHOICE (log 32): a skip past the end of the view is out of bounds at once, as a read would be (R225). -/
def Reader.skip (r : Reader) (n : Nat := 1) : Except ReaderError Reader := (r.readArray n).map Prod.snd

/-- `read_start()` (R224): one byte, not checked. -/
def Reader.readStart (r : Reader) : Except ReaderError (List Byte × Reader) := r.readArray 1

/-- `read_end()` (R224): one byte, not checked. -/
def Reader.readEnd (r : Reader) : Except ReaderError (List Byte × Reader) := r.readArray 1

/-- The bytes at the end of the view that content-length arithmetic keeps back: in decoded mode 2 checksum bytes and the terminator (R213). -/
def Reader.reserved (r : Reader) : Nat :=
  match r.mode with
  | .decoded => 3
  | .raw => 0

/-- `read_current_remaining_length()` (R213). A negative length has no answer (spec/93_implementation_defined.md U16: refuse; log 24). -/
def Reader.remaining (r : Reader) : Except ReaderError Nat :=
  if r.cur + r.reserved ≤ r.view.length then .ok (r.view.length - r.cur - r.reserved) else .error .unspecified

/-- `read_content(reserve)` (R221). A reserve larger than what remains is not specified (U16). -/
def Reader.readContent (reserve : Nat) (r : Reader) : Except ReaderError (List Byte × Reader) :=
  r.remaining.bind fun n => if reserve ≤ n then r.readArray (n - reserve) else .error .unspecified

/-! ### Text and slices -/

/-- A text with its trailing NUL characters, U+0000, stripped (R211, R222; log 32). -/
def trimNul (t : String) : String := String.ofList (t.toList.reverse.dropWhile (· == Char.ofNat 0)).reverse

/-- `read_string(len)` (R211): the bytes are decoded first, then the padding is stripped from the text. The protocol's text encoding is not given and is an argument (U16). -/
def Reader.readString (decodeText : List Byte → String) (n : Nat) (r : Reader) : Except ReaderError (String × Reader) :=
  (r.readArray n).map fun (bs, r) => (trimNul (decodeText bs), r)

/-- `read_remaining_string_content()` (R222). -/
def Reader.readRemainingString (decodeText : List Byte → String) (r : Reader) : Except ReaderError (String × Reader) :=
  (r.readContent 0).map fun (bs, r) => (trimNul (decodeText bs), r)

/-- The role of the second argument of `read_array(start, length)`, which the source leaves open (spec/93_implementation_defined.md U4). -/
inductive SliceSecondArg where
  | length
  | endOffset
  deriving DecidableEq, Repr

/-- `read_array(start, length)` (R210): a slice of the whole view, the cursor unmoved, in either reading of its second argument. DESIGN CHOICE (log 32): an end offset below the start, and a slice that leaves the view, are out of bounds. -/
def Reader.slice (role : SliceSecondArg) (start second : Nat) (r : Reader) : Except ReaderError (List Byte) :=
  let stop := match role with
    | .length => start + second
    | .endOffset => second
  if start ≤ stop ∧ stop ≤ r.view.length then .ok ((r.view.take stop).drop start) else .error .outOfBounds

/-! ### Dates (R215 to R219) -/

/-- A date and time of day. -/
structure DateTime where
  year : Nat
  month : Nat
  day : Nat
  hour : Nat
  minute : Nat
  second : Nat
  millisecond : Nat
  deriving DecidableEq, Repr

/-- What the source does not give of the date fields (spec/91_not_in_source.md N10; spec/93_implementation_defined.md U16): parameters. -/
structure DateParams where
  /-- The protocol epoch base year of the six-byte field (R216). -/
  baseYear : Nat
  /-- The fixed epoch a malformed field falls back to (R215). -/
  fallback : DateTime
  /-- The current date, which the five-byte field takes (R217). -/
  today : DateTime
  /-- The fixed protocol UTC epoch of the eight-byte field (R219). -/
  utcEpoch : DateTime
  /-- The last year the consumer's calendar has: a later one is out of range. -/
  lastYear : Nat
  deriving DecidableEq, Repr

/-- A selectable numeric base (R215): the number that the bytes of one component mean, none where its digits are not of the base. The set of bases is not given, so a read takes any. -/
abbrev NumericBase := List Byte → Option Nat

/-- The number the two decimal digits of a byte mean; none where a nibble exceeds 9. -/
def twoDigits (b : Byte) : Option Nat :=
  if (b.extractLsb' 4 4).toNat ≤ 9 ∧ (b.extractLsb' 0 4).toNat ≤ 9 then
    some ((b.extractLsb' 4 4).toNat * 10 + (b.extractLsb' 0 4).toNat)
  else none

/-- Hexadecimal-as-decimal, the default base: two packed decimal digits per byte (R215; spec/90_conflicts.md C4). DESIGN CHOICE (log 31): of a component of two bytes (the year of R218, the sub-second value of R217) the first byte has the higher digits. -/
def digitPairs : NumericBase := fun bs =>
  bs.foldl (fun n b => match n, twoDigits b with
    | some n, some d => some (n * 100 + d)
    | _, _ => none) (some 0)

/-- The base in which the binary value is the number, the one R216's printed example fits. -/
def binaryBase : NumericBase := fun bs => some (bigEndian bs)

/-- The days of a month of the calendar. -/
def daysInMonth (year month : Nat) : Nat :=
  if month = 2 then (if year % 4 = 0 ∧ (year % 100 ≠ 0 ∨ year % 400 = 0) then 29 else 28)
  else if month = 4 ∨ month = 6 ∨ month = 9 ∨ month = 11 then 30
  else 31

/-- The values are in the ranges of the calendar. DESIGN CHOICE (log 31): the spec gives no ranges; here the first year is 1, hours end at 23, minutes and seconds at 59 (a leap second is out of range), milliseconds at 999. -/
def DateTime.inRange (lastYear : Nat) (t : DateTime) : Bool :=
  1 ≤ t.year && t.year ≤ lastYear && 1 ≤ t.month && t.month ≤ 12 && 1 ≤ t.day && t.day ≤ daysInMonth t.year t.month &&
    t.hour ≤ 23 && t.minute ≤ 59 && t.second ≤ 59 && t.millisecond ≤ 999

/-- A date and time, or the fixed epoch where it is out of range (R215). -/
def orFallback (p : DateParams) (t : DateTime) : DateTime := if t.inRange p.lastYear then t else p.fallback

/-- The date and time of a field's components, or the fixed epoch where one is malformed or out of range (R215). -/
def dateTimeOf (p : DateParams) (year month day hour minute second millisecond : Option Nat) : DateTime :=
  match year, month, day, hour, minute, second, millisecond with
  | some y, some mo, some d, some h, some mi, some s, some ms => orFallback p ⟨y, mo, d, h, mi, s, ms⟩
  | _, _, _, _, _, _, _ => p.fallback

/-- The number that the `n` bytes from `k` of a field mean. -/
def component (base : NumericBase) (bs : List Byte) (k n : Nat) : Option Nat := base ((bs.drop k).take n)

/-- The six-byte field `YY MM DD HH MM SS` (R216). DESIGN CHOICE (log 31): the milliseconds, of which the field has none, are 0. -/
def Reader.readDate6 (p : DateParams) (r : Reader) (base : NumericBase := digitPairs) :
    Except ReaderError (DateTime × Reader) :=
  (r.readArray 6).map fun (bs, r) =>
    (dateTimeOf p ((component base bs 0 1).map (p.baseYear + ·)) (component base bs 1 1) (component base bs 2 1)
      (component base bs 3 1) (component base bs 4 1) (component base bs 5 1) (some 0), r)

/-- The five-byte field `HH MM SS` and a sub-second value of two bytes, on the current date (R217). DESIGN CHOICE (log 31): the value is read in the field's base, so by default as four digits with the first byte the hundreds, and counts milliseconds. -/
def Reader.readTime5 (p : DateParams) (r : Reader) (base : NumericBase := digitPairs) :
    Except ReaderError (DateTime × Reader) :=
  (r.readArray 5).map fun (bs, r) =>
    (dateTimeOf p (some p.today.year) (some p.today.month) (some p.today.day) (component base bs 0 1)
      (component base bs 1 1) (component base bs 2 1) (component base bs 3 2), r)

/-- The four-byte field of year (two bytes), month and day (R218). DESIGN CHOICE (log 31): the rule gives no time of day, and the model answers 00:00:00.000. -/
def Reader.readDate4 (p : DateParams) (r : Reader) (base : NumericBase := digitPairs) :
    Except ReaderError (DateTime × Reader) :=
  (r.readArray 4).map fun (bs, r) =>
    (dateTimeOf p (component base bs 0 2) (component base bs 2 1) (component base bs 3 1) (some 0) (some 0) (some 0)
      (some 0), r)

/-- The days from 1 March of year 0 to a date of the calendar. -/
def dayNumber (year month day : Nat) : Nat :=
  let y := if month ≤ 2 then year - 1 else year
  365 * y + y / 4 - y / 100 + y / 400 + (153 * ((month + 9) % 12) + 2) / 5 + (day - 1)

/-- The year, month and day that lie some days after 1 March of year 0. -/
def dateOfDay (n : Nat) : Nat × Nat × Nat :=
  let inEra := n % 146097
  let ofEra := (inEra - inEra / 1460 + inEra / 36524 - inEra / 146096) / 365
  let inYear := inEra - (365 * ofEra + ofEra / 4 - ofEra / 100)
  let fromMarch := (5 * inYear + 2) / 153
  let month := if fromMarch < 10 then fromMarch + 3 else fromMarch - 9
  (n / 146097 * 400 + ofEra + (if month ≤ 2 then 1 else 0), month, inYear - (153 * fromMarch + 2) / 5 + 1)

/-- A date and time some seconds later. DESIGN CHOICE (log 31): every day has 86400 seconds, so leap seconds are not counted. -/
def DateTime.plusSeconds (t : DateTime) (n : Nat) : DateTime :=
  let total := dayNumber t.year t.month t.day * 86400 + t.hour * 3600 + t.minute * 60 + t.second + n
  let date := dateOfDay (total / 86400)
  ⟨date.1, date.2.1, date.2.2, total / 3600 % 24, total / 60 % 60, total % 60, t.millisecond⟩

/-- The eight-byte field (R219): big-endian seconds since the protocol's UTC epoch, and 8 hours; the fixed epoch where the calendar has no such date (R215). DESIGN CHOICE (log 31): the milliseconds are the epoch's. -/
def Reader.readSeconds8 (p : DateParams) (r : Reader) : Except ReaderError (DateTime × Reader) :=
  (r.readArray 8).map fun (bs, r) => (orFallback p (p.utcEpoch.plusSeconds (bigEndian bs + 8 * 3600)), r)

/-! ### Field values (R207) -/

/-- The typed result of one read. -/
inductive FieldValue where
  | unsigned16 (v : BitVec 16)
  | unsigned32 (v : BitVec 32)
  | unsigned64 (v : BitVec 64)
  | signed32 (v : Int)
  | bigNumber (t : String)
  | packedDecimal (t : String)
  | dateTime (t : DateTime)
  | bytes (bs : List Byte)
  | text (t : String)
  deriving DecidableEq, Repr

/-- A consuming read of a field. -/
inductive FieldRead where
  | unsigned16
  | unsigned32
  | unsigned64
  | signed32
  | bigNumber (len : Nat)
  | packedDecimal (upper : Bool) (len : Nat)
  | date6 (p : DateParams) (base : NumericBase)
  | time5 (p : DateParams) (base : NumericBase)
  | date4 (p : DateParams) (base : NumericBase)
  | seconds8 (p : DateParams)
  | bytes (len : Nat)
  | text (decodeText : List Byte → String) (len : Nat)

/-- A read of a field as its value. Nothing of the read is kept but the cursor (R207). -/
def Reader.readField (f : FieldRead) (r : Reader) : Except ReaderError (FieldValue × Reader) :=
  match f with
  | .unsigned16 => r.readU16.map fun (v, r) => (.unsigned16 v, r)
  | .unsigned32 => r.readU32.map fun (v, r) => (.unsigned32 v, r)
  | .unsigned64 => r.readU64.map fun (v, r) => (.unsigned64 v, r)
  | .signed32 => r.readSigned32.map fun (v, r) => (.signed32 v, r)
  | .bigNumber n => (r.readBigNumber n).map fun (t, r) => (.bigNumber t, r)
  | .packedDecimal upper n => (r.readBcd upper n).map fun (t, r) => (.packedDecimal t, r)
  | .date6 p base => (r.readDate6 p base).map fun (t, r) => (.dateTime t, r)
  | .time5 p base => (r.readTime5 p base).map fun (t, r) => (.dateTime t, r)
  | .date4 p base => (r.readDate4 p base).map fun (t, r) => (.dateTime t, r)
  | .seconds8 p => (r.readSeconds8 p).map fun (t, r) => (.dateTime t, r)
  | .bytes n => (r.readArray n).map fun (bs, r) => (.bytes bs, r)
  | .text decodeText n => (r.readString decodeText n).map fun (t, r) => (.text t, r)

end Sys2Proof.Machine
end

