-- ==== Sys2Proof/Safety.lean ====
section
/-! DEFINITION. What a good state is, in the terms the statements use: the invariant of every reachable state, part by part (spec/10_state.md R24, R25, R30, R31, R42; spec/43_decode.md R160). -/

namespace Sys2Proof.Machine

/-- The bytes `IN` holds, in order of index. -/
def frameBytes (s : State) : List Byte := s.inMem.map Prod.snd

/-- `IN` and `LEN` hold the frame `f` (spec/10_state.md R33). -/
abbrev Loaded (f : List Byte) (s : State) : Prop := s.inMem = Memory.ofBytes f ∧ s.len = f.length

/-- The byte a symbol of the wire emits (spec/30_encoding.md R73, R74). -/
def symbolByte : Instr → Option Byte
  | .esc5B => some 0x5B
  | .esc5A => some 0x5A
  | .esc5D => some 0x5D
  | .esc5E => some 0x5E
  | .lit1 b => some b
  | _ => none

/-- How many wire bytes a symbol takes (R73). -/
def symbolLength : Instr → Nat
  | .esc5B | .esc5A | .esc5D | .esc5E => 2
  | _ => 1

/-- The three forms of the checksum field, told from the field's bytes and the byte before them: `(HI, LO)` (spec/30_encoding.md R72). -/
def checksumForm (before : Byte) : List Byte → Option (Byte × Byte)
  | [c, d] => if (esc c d).2 then none else some (c, d)
  | [b, c, d] => if (esc c d).2 && !(esc before b).2 then some (b, (esc c d).1) else none
  | [a, b, c, d] => if (esc c d).2 && (esc a b).2 then some ((esc a b).1, (esc c d).1) else none
  | _ => none

/-- A session in which `DECODE` or `FULL_DECODE` runs as one transition from its start: constructed, not yet decoded, the CRC at its seed (R40; spec/43_decode.md R159). -/
abbrev ReadyAtomic (s : State) : Prop := s.status = .fresh ∧ s.grain = .atomic ∧ s.crc = crcInit

/-- `IN[1 … PAY_LEN]`, the escaped payload (spec/42_checksum_extraction.md R135). -/
def payloadBytes (s : State) : List Byte := ((frameBytes s).drop 1).take s.payLen

/-- The bytes of the running scan: the payload, or the whole frame (R24). -/
def scanRegion (s : State) : List Byte :=
  match s.kind with
  | .decode => payloadBytes s
  | .full => frameBytes s

/-- `IN` holds exactly the `LEN` bytes of a frame, at indices 0 to `LEN - 1` (spec/20_memory.md R50). -/
abbrev FrameHeld (s : State) : Prop :=
  s.inMem = Memory.ofBytes (frameBytes s) ∧ (frameBytes s).length = s.len

/-- `OUT` is in canonical form and within its capacity (R34). -/
abbrev OutHeld (s : State) : Prop := Memory.wf s.outMem = true ∧ ∀ c ∈ s.outMem, c.1 < s.len

/-- The frame fits the capacity (R26). -/
abbrev WithinCapacity (s : State) : Prop := overCapacity s.cfg s.len = false

/-- `FAULT_CODE` is 0 outside `FAULT` and one of the four codes in it (R31; spec/60_exceptions.md R241). -/
abbrev FaultCodeFits (s : State) : Prop :=
  if s.status = .fault then 1 ≤ s.faultCode.toNat ∧ s.faultCode.toNat ≤ 4 else s.faultCode = 0

/-- A command is in progress exactly in `BUSY` (R30). -/
abbrev PhaseFits (s : State) : Prop := s.phase = .admission ↔ s.status ≠ .busy

/-- Before a scan nothing is written: the seed, `raw`, an empty `OUT` (R40). -/
abbrev Untouched (s : State) : Prop := s.crc = crcInit ∧ s.mode = .raw ∧ s.outMem = []

/-- Where the consumed part of a scanned region ends on a symbol boundary (R160). -/
def onBoundary : List Byte → Nat → Bool
  | _, 0 => true
  | [], _ + 1 => false
  | [_], k + 1 => k == 0
  | b0 :: b1 :: rest, k + 1 =>
    if (esc b0 b1).2 then
      match k with
      | 0 => false
      | k + 1 => onBoundary rest k
    else onBoundary (b1 :: rest) k

/-- The bytes emitted so far: `SCAN` of the consumed part of the region (R160). -/
def emitted (s : State) : List Byte := scan ((scanRegion s).take s.i)

/-- The bounds of `DECODE`'s working registers after CSX: `LEN = 1 + PAY_LEN + ESC_LEN + 1` with 2, 3 or 4 checksum bytes (spec/30_encoding.md R70). -/
abbrev BoundsFit (s : State) : Prop :=
  s.payLen + s.escLen.toNat + 2 = s.len ∧ 2 ≤ s.escLen.toNat ∧ s.escLen.toNat ≤ 4 ∧
    s.parsed = joinBytes s.hi s.lo

/-- The state inside a scan (R160): `OUT` holds the start byte (for `DECODE`) and the bytes emitted so far, `O` counts them, and the CRC is that of exactly those bytes. -/
abbrev ScanFits (s : State) : Prop :=
  s.mode = .raw ∧ s.i ≤ scanLen s ∧ onBoundary (scanRegion s) s.i = true ∧ s.o = (emitted s).length ∧
    match s.kind with
    | .decode =>
      BoundsFit s ∧ s.crc = crcRun s.cfg (emitted s) ∧
        s.outMem = Memory.ofBytes ((frameBytes s).take 1 ++ emitted s)
    | .full => s.crc = crcInit ∧ s.outMem = Memory.ofBytes (emitted s)

/-- What `DECODE` leaves in `OUT` (spec/43_decode.md R159): start byte, decoded payload, computed checksum, terminator. -/
def decodedOutput (s : State) : List Byte :=
  (frameBytes s).take 1 ++ scan (payloadBytes s) ++
    [hiByte (crcRun s.cfg (scan (payloadBytes s))), loByte (crcRun s.cfg (scan (payloadBytes s)))] ++
    (frameBytes s).drop (s.len - 1)

/-- The state a completed command leaves (R42). -/
abbrev ResultFits (s : State) : Prop :=
  match s.kind with
  | .decode =>
    BoundsFit s ∧ s.mode = .decoded ∧ s.crc = crcRun s.cfg (scan (payloadBytes s)) ∧
      s.valid = (s.crc == s.parsed) ∧ s.outLen = (scan (payloadBytes s)).length + 4 ∧
      s.outMem = Memory.ofBytes (decodedOutput s)
  | .full =>
    s.mode = s.cfg.modeAfterFull ∧ s.crc = crcInit ∧ s.outLen = (scan (frameBytes s)).length ∧
      s.outMem = Memory.ofBytes (scan (frameBytes s))

/-- What each `STATE` and phase says of the rest of the session. -/
abbrev SessionFits (s : State) : Prop :=
  match s.status with
  | .fresh => Untouched s
  | .done => ResultFits s
  | .fault => True
  | .busy =>
    match s.phase with
    | .admission => True
    | .csx => Untouched s ∧ minLen ≤ s.len
    | .scan => ScanFits s
    | .asm => ScanFits s ∧ s.i = scanLen s

/-- The invariant of every state a run from reset reaches. -/
structure Inv (s : State) : Prop where
  frame : FrameHeld s
  out : OutHeld s
  capacity : WithinCapacity s
  faultCode : FaultCodeFits s
  phase : PhaseFits s
  session : SessionFits s

end Sys2Proof.Machine
end

