-- ==== Sys2Proof/Certificates/Slice0/Obligations.lean ====
section
/-! DEFINITION. The statements for the provers. Each docstring names the rules of spec/ it formalises; where a clause rests on the model's own choice it names the log entry. -/

open Sys2Proof Sys2Proof.Machine

/-! ### Encodings -/

/-- Words of the opcode table decode to their rows (spec/30_encoding.md R74, R80; spec/40_escape_table.md R104). The choice of context for words of one byte is the model's (log 18). -/
def Obligations.TableWordsDecode : Prop :=
  decodeTableWord 8 0b00 = some .nop ∧ decodeTableWord 8 0b01 = some .decode ∧
  decodeTableWord 8 0b10 = some .fullDecode ∧ decodeTableWord 8 0b11 = some .reservedCmd ∧
  decodeTableWord 16 0b0101101000000001 = some .esc5B ∧ decodeTableWord 16 0b0101101000000010 = some .esc5A ∧
  decodeTableWord 16 0b0101111000000001 = some .esc5D ∧ decodeTableWord 16 0b0101111000000010 = some .esc5E ∧
  decodeTableWord 8 0b01011011 = some .enc5B ∧ decodeTableWord 8 0b01011010 = some .enc5A ∧
  decodeTableWord 8 0b01011101 = some .enc5D ∧ decodeTableWord 8 0b01011110 = some .enc5E ∧
  decodeTableWord 8 0x41 = some (.lit1 0x41)

/-- Decoding the bytes of a well-formed instruction gives it back, whatever bytes follow. The one condition is the spec's: a literal is one only where it does not begin an escape sequence (R75). -/
def Obligations.DecodeOfEncodeIsIdentity : Prop :=
  ∀ (i : Instr) (c : Context) (bs rest : List Byte), i.wellFormed = true → encode i = some (c, bs) →
    (∀ b b1 rest', i = .lit1 b → rest = b1 :: rest' → (esc b b1).2 = false) →
    decode c (bs ++ rest) = .ok (i, rest)

/-- Whatever decodes is well formed, and its encoding is the bytes consumed; of a command only the low two bits (R192). -/
def Obligations.EncodeOfDecodeIsIdentity : Prop :=
  ∀ (c : Context) (bs rest : List Byte) (i : Instr), decode c bs = .ok (i, rest) →
    i.wellFormed = true ∧
      match c with
      | .command => ∃ b, bs = b :: rest ∧ encode i = some (.command, [b &&& 0b11])
      | .wire => ∃ used, encode i = some (.wire, used) ∧ bs = used ++ rest
      | .encodeLookup => ∃ used, encode i = some (.encodeLookup, used) ∧ bs = used ++ rest

/-- The symbol decoder cuts exactly where the Escape Table matches, and the symbol emits the byte the table gives (R75, R83 against R101); a last byte is a literal. -/
def Obligations.DecodedSymbolIsEscapeLookup : Prop :=
  (∀ (b0 b1 : Byte) (rest : List Byte), ∃ i,
    decode .wire (b0 :: b1 :: rest) = .ok (i, if (esc b0 b1).2 then rest else b1 :: rest) ∧
      symbolByte i = some (esc b0 b1).1 ∧ symbolLength i = if (esc b0 b1).2 then 2 else 1) ∧
  ∀ b : Byte, decode .wire [b] = .ok (.lit1 b, [])

/-! ### The Escape Table -/

/-- The contract of `ESC` (spec/40_escape_table.md R101): the four sequences with their bytes, and `(first byte, false)` for every other window. -/
def Obligations.EscapeTableContract : Prop :=
  esc 0x5A 0x01 = (0x5B, true) ∧ esc 0x5A 0x02 = (0x5A, true) ∧ esc 0x5E 0x01 = (0x5D, true) ∧
  esc 0x5E 0x02 = (0x5E, true) ∧
  ∀ b0 b1 : Byte, (b0, b1) ∉ [((0x5A : Byte), (0x01 : Byte)), (0x5A, 0x02), (0x5E, 0x01), (0x5E, 0x02)] →
    esc b0 b1 = (b0, false)

/-- `ESC_ENC` and `ESC` are the same four rows read in opposite directions (R104; R105 items 2 and 3). -/
def Obligations.EncodeLookupInvertsEscape : Prop :=
  ∀ b b0 b1 : Byte, escEnc b = some (b0, b1) ↔ esc b0 b1 = (b, true)

/-- The round-trip law (R105 item 1). -/
def Obligations.ScanOfStuffIsIdentity : Prop := ∀ p : List Byte, scan (stuff p) = p

/-- De-stuffing never expands, and keeps the length exactly where nothing is unescaped (R105 item 5). -/
def Obligations.ScanKeepsLengthOnlyWithoutEscapes : Prop :=
  ∀ w : List Byte, (scan w).length ≤ w.length ∧ ((scan w).length = w.length ↔ scan w = w)

/-- The encode lookups answer their row and change nothing of the block (R104). That the answer goes to `reply` is the model's choice (logs 12, 21). -/
def Obligations.EncodeLookupsAnswerTheirRow : Prop :=
  ∀ s : State,
    exec .enc5B s = .next { s with reply := .escape 0x5A 0x01 } ∧
    exec .enc5A s = .next { s with reply := .escape 0x5A 0x02 } ∧
    exec .enc5D s = .next { s with reply := .escape 0x5E 0x01 } ∧
    exec .enc5E s = .next { s with reply := .escape 0x5E 0x02 } ∧
    ∀ b : Byte, (Instr.encNone b).wellFormed = true → exec (.encNone b) s = .next { s with reply := .noEscape }

/-! ### The CRC Engine -/

/-- `CRC_UPD` (spec/41_crc_engine.md R115): `k = (c >> 8) XOR zext_16(b)`, the new register is `trunc_16(c << 8) XOR T[k]`, for every register, byte and table; nothing else changes. -/
def Obligations.CrcUpdateFormula : Prop :=
  ∀ (s : State) (b : Byte), ∃ e : Half,
    s.cfg.crcTable.val[((s.crc >>> 8) ^^^ b.setWidth 16).toNat]? = some e ∧
      exec (.crcUpd b) s = .next { s with crc := (s.crc <<< 8) ^^^ e }

/-- The register's low byte enters only shifted, its high byte and the operand only through the index (R116 item 4). -/
def Obligations.CrcSplitsIntoShiftAndIndex : Prop :=
  ∀ (cfg : Config) (c : Half) (b : Byte),
    crcUpd cfg c b = joinBytes (loByte c) 0 ^^^ tableEntry cfg (hiByte c ^^^ b)

/-- The default table is the one R118's loop generates, and gives the check value `29B1`. The default is general knowledge, not the source's (R118; log 1). -/
def Obligations.DefaultTableIsPolynomial1021 : Prop :=
  (∀ k : Byte, tableEntry defaultConfig k = crcTableEntry k) ∧
  crcRun defaultConfig [0x31, 0x32, 0x33, 0x34, 0x35, 0x36, 0x37, 0x38, 0x39] = 0x29B1

/-- Under the default table a change of exactly one byte of a payload always changes the CRC (spec/43_decode.md R163 item 2; log 1). -/
def Obligations.SingleByteChangeChangesCrc : Prop :=
  ∀ (p q : List Byte) (x y : Byte), x ≠ y → crcRun defaultConfig (p ++ x :: q) ≠ crcRun defaultConfig (p ++ y :: q)

/-! ### Symbols -/

/-- The scan step of each symbol, `ESC_5B`, `ESC_5A`, `ESC_5D`, `ESC_5E` and `LIT1` (spec/43_decode.md R154; spec/44_full_decode.md R181): the emitted byte is stored at the scan base plus `O`, `DECODE` feeds it to the CRC, `O` counts it and `I` passes the symbol's wire bytes; nothing else changes. -/
def Obligations.SymbolsEmitAndAdvance : Prop :=
  ∀ (i : Instr) (d : Byte) (s : State), symbolByte i = some d →
    (s.kind = .decode → 1 + s.o < s.len →
      exec i s = .next { s with
        outMem := Memory.write s.outMem (1 + s.o) d
        crc := crcUpd s.cfg s.crc d
        o := s.o + 1
        i := s.i + symbolLength i }) ∧
    (s.kind = .full → s.o < s.len →
      exec i s = .next { s with
        outMem := Memory.write s.outMem s.o d
        o := s.o + 1
        i := s.i + symbolLength i })

/-- The frame of a symbol: one cell of `OUT` is written, `IN` and every register but `I`, `O` and (in `DECODE`) `CRC` stay. -/
def Obligations.SymbolsLeaveTheRest : Prop :=
  ∀ (i : Instr) (d : Byte) (s t : State), symbolByte i = some d → exec i s = .next t →
    (∀ a, a ≠ scanBase s + s.o → Memory.read t.outMem a = Memory.read s.outMem a) ∧
    Memory.read t.outMem (scanBase s + s.o) = some d ∧
    (s.kind = .full → t.crc = s.crc) ∧
    (∀ a, Memory.read t.inMem a = Memory.read s.inMem a) ∧
    t.cfg = s.cfg ∧ t.len = s.len ∧ t.outLen = s.outLen ∧ t.parsed = s.parsed ∧ t.valid = s.valid ∧
    t.mode = s.mode ∧ t.status = s.status ∧ t.faultCode = s.faultCode ∧ t.escLen = s.escLen ∧
    t.payLen = s.payLen ∧ t.hi = s.hi ∧ t.lo = s.lo ∧ t.phase = s.phase ∧ t.kind = s.kind ∧
    t.requests = s.requests ∧ t.reply = s.reply ∧ t.grain = s.grain ∧ t.draws = s.draws

/-- A symbol whose byte would fall outside `OUT`'s `LEN` cells stops the model (spec/20_memory.md R60; log 8). -/
def Obligations.SymbolBeyondCapacityStops : Prop :=
  ∀ (i : Instr) (d : Byte) (s : State), symbolByte i = some d → s.len ≤ scanBase s + s.o →
    exec i s = .fault (.outOutOfRange (scanBase s + s.o))

/-! ### Checksum extraction -/

/-- `CSX` (spec/42_checksum_extraction.md R131 to R133; `PARSED` as R134, `PAY_LEN` as R135): the first window does not match, only the first does, both do. The block's bytes are read off `IN`; the frame of five bytes with both windows matching is the next statement's. -/
def Obligations.ChecksumExtraction : Prop :=
  ∀ (s : State) (a b c d : Byte), 5 ≤ s.len →
    Memory.read s.inMem (s.len - 5) = some a → Memory.read s.inMem (s.len - 4) = some b →
    Memory.read s.inMem (s.len - 3) = some c → Memory.read s.inMem (s.len - 2) = some d →
    ((esc c d).2 = false →
      exec .csx s = .next { s with
        hi := c, lo := d, escLen := 2, parsed := c ++ d, payLen := s.len - 2 - 2 }) ∧
    ((esc c d).2 = true → (esc a b).2 = false →
      exec .csx s = .next { s with
        hi := b, lo := (esc c d).1, escLen := 3, parsed := b ++ (esc c d).1, payLen := s.len - 3 - 2 }) ∧
    ((esc c d).2 = true → (esc a b).2 = true → 6 ≤ s.len →
      exec .csx s = .next { s with
        hi := (esc a b).1, lo := (esc c d).1, escLen := 4, parsed := (esc a b).1 ++ (esc c d).1,
        payLen := s.len - 4 - 2 })

/-- Both windows of a frame of five bytes match: the payload length would be negative, and `CSX` raises `FrameTooShort` (R135, the spec's decision D12); `PAY_LEN` and the memories stay. -/
def Obligations.ExtractionOfDoublyEscapedFiveBytesFaults : Prop :=
  ∀ (s : State) (a b c d : Byte), s.len = 5 → s.status ≠ .fault →
    Memory.read s.inMem 0 = some a → Memory.read s.inMem 1 = some b →
    Memory.read s.inMem 2 = some c → Memory.read s.inMem 3 = some d →
    (esc a b).2 = true → (esc c d).2 = true →
    ∃ t, exec .csx s = .next t ∧ t.status = .fault ∧ t.faultCode = 1 ∧ t.payLen = s.payLen ∧
      t.outMem = s.outMem ∧ t.inMem = s.inMem ∧ t.len = s.len

/-- CSX looks at nothing before the last five bytes (R139 item 1): two blocks that agree there and in `LEN` extract the same. -/
def Obligations.ExtractionSeesOnlyLastFiveBytes : Prop :=
  ∀ s s' t t' : State, s.len = s'.len →
    (∀ k, 2 ≤ k → k ≤ 5 → Memory.read s.inMem (s.len - k) = Memory.read s'.inMem (s'.len - k)) →
    exec .csx s = .next t → exec .csx s' = .next t' →
    t.hi = t'.hi ∧ t.lo = t'.lo ∧ t.parsed = t'.parsed ∧ t.escLen = t'.escLen ∧
      (6 ≤ s.len → t.payLen = t'.payLen)

/-- Below its precondition CSX stops the model (R130; log 20). -/
def Obligations.ExtractionBelowPreconditionStops : Prop :=
  ∀ s : State, s.len < 5 → exec .csx s = .fault (.csxPrecondition s.len)

/-! ### DECODE -/

/-- `DECODE` (spec/43_decode.md R159, as equations), on every frame whose checksum field has one of the three forms of R72: the whole next state. One transition per command, `phase` and `kind` are the model's (logs 11, 19, 27). -/
def Obligations.DecodeResult : Prop :=
  ∀ (s : State) (start stop hi lo : Byte) (payload field : List Byte),
    ReadyAtomic s → Loaded (start :: payload ++ field ++ [stop]) s → 5 ≤ s.len →
    checksumForm ((start :: payload).getLast (List.cons_ne_nil _ _)) field = some (hi, lo) →
    exec .decode s = .next { s with
      outMem := Memory.writeBytes s.outMem 0
        (start :: scan payload ++
          [hiByte (crcRun s.cfg (scan payload)), loByte (crcRun s.cfg (scan payload)), stop])
      outLen := (scan payload).length + 4
      crc := crcRun s.cfg (scan payload)
      parsed := hi ++ lo
      valid := crcRun s.cfg (scan payload) == (hi ++ lo : Half)
      mode := .decoded
      status := .done
      escLen := BitVec.ofNat 3 field.length
      payLen := payload.length
      hi := hi
      lo := lo
      i := payload.length
      o := (scan payload).length
      phase := .admission
      kind := .decode }

/-- `DECODE` is total on five bytes and more, but for five bytes with a doubly escaped checksum (R164). -/
def Obligations.DecodeIsTotal : Prop :=
  ∀ (s : State) (f : List Byte), s.status = .fresh → s.grain = .atomic → Loaded f s → 5 ≤ f.length →
    (∀ a b c d e : Byte, f = [a, b, c, d, e] → ¬ ((esc a b).2 = true ∧ (esc c d).2 = true)) →
    ∃ t, exec .decode s = .next t ∧ t.status = .done

/-- Five bytes with a doubly escaped checksum: `FrameTooShort`, and `OUT` is untouched (spec/42 R135, spec/60_exceptions.md R242, R245). -/
def Obligations.DecodeOfDoublyEscapedFiveBytesFaults : Prop :=
  ∀ (s : State) (a b c d e : Byte), s.status = .fresh → s.grain = .atomic → Loaded [a, b, c, d, e] s →
    (esc a b).2 = true → (esc c d).2 = true →
    ∃ t, exec .decode s = .next t ∧ t.status = .fault ∧ t.faultCode = 1 ∧ t.inMem = s.inMem ∧ t.len = s.len ∧
      ∀ k, Memory.read t.outMem k = Memory.read s.outMem k

/-- A frame below five bytes: `FrameTooShort` before anything else (R151, R242). Of the model's own phase and draw counter (logs 5, 27) nothing is said. -/
def Obligations.DecodeOfShortFrameFaults : Prop :=
  ∀ s : State, s.status = .fresh → s.len < 5 →
    ∃ p d, exec .decode s = .next { s with status := .fault, faultCode := 1, phase := p, draws := d }

/-- The frame of the two decode commands: `IN`, `LEN`, the parameters and the host's side stay; `OUT` changes only below the `OUT_LEN` a completed command leaves (spec/10_state.md R34, R42 item 4; spec/43_decode.md R150). -/
def Obligations.DecodeCommandsLeaveTheRest : Prop :=
  ∀ (i : Instr) (s t : State), (i = .decode ∨ i = .fullDecode) → FrameHeld s → exec i s = .next t →
    t.cfg = s.cfg ∧ t.inMem = s.inMem ∧ t.len = s.len ∧ t.requests = s.requests ∧ t.reply = s.reply ∧
    t.grain = s.grain ∧
    (i = .fullDecode → t.crc = s.crc ∧ t.parsed = s.parsed ∧ t.valid = s.valid ∧ t.escLen = s.escLen ∧
      t.payLen = s.payLen ∧ t.hi = s.hi ∧ t.lo = s.lo) ∧
    ∀ a, (s.status ≠ .fresh ∨ t.status ≠ .done ∨ t.outLen ≤ a) → Memory.read t.outMem a = Memory.read s.outMem a

/-- The validity flag (R157, R163 item 1) and the trap of re-verifying from `OUT` (spec/70_reset_and_hazards.md R281): the flag says whether the CRC of the decoded payload is the parsed checksum, and the checksum in `OUT` is that CRC in either case. -/
def Obligations.ValidityComparesPayloadCrcWithParsed : Prop :=
  ∀ (s t : State), FrameHeld s → ReadyAtomic s → exec .decode s = .next t → t.status = .done →
    ∃ p : List Byte, p.length + 4 = t.outLen ∧ Memory.readBytes t.outMem 1 p.length = some p ∧
      (t.valid = true ↔ crcRun t.cfg p = t.parsed) ∧ t.crc = crcRun t.cfg p ∧
      Memory.read t.outMem (p.length + 1) = some (hiByte (crcRun t.cfg p)) ∧
      Memory.read t.outMem (p.length + 2) = some (loByte (crcRun t.cfg p))

/-- The round trip through `DECODE` (R163 item 3): the frame a well-formed encoder builds from a payload decodes to it and is valid, for every table, unless the high checksum byte is escaped and the low one is not. The payload is not empty: the frame of the empty payload can have four bytes (R151). -/
def Obligations.EncodedFrameDecodesToItsPayload : Prop :=
  ∀ (s : State) (p : List Byte), p ≠ [] → ReadyAtomic s → Loaded (frameOf s.cfg p) s →
    ¬ (isEscapable (hiByte (crcRun s.cfg p)) = true ∧ isEscapable (loByte (crcRun s.cfg p)) = false) →
    ∃ t, exec .decode s = .next t ∧ t.status = .done ∧ t.valid = true ∧ t.crc = crcRun s.cfg p ∧
      t.outLen = p.length + 4 ∧
      Memory.readBytes t.outMem 0 t.outLen =
        some (startMarker :: p ++ [hiByte (crcRun s.cfg p), loByte (crcRun s.cfg p), endMarker])

/-- The form "high escaped, low raw" is misread (spec/42_checksum_extraction.md R138): `HI` is the second byte of the escape sequence, its lead byte is scanned as the last payload byte and enters the CRC; no fault. -/
def Obligations.HighEscapedLowRawIsMisread : Prop :=
  ∀ (s : State) (start l1 l2 lo stop : Byte) (p : List Byte), ReadyAtomic s →
    Loaded (start :: p ++ [l1, l2, lo, stop]) s → (esc l1 l2).2 = true →
    ∃ t, exec .decode s = .next t ∧ t.status = .done ∧ t.hi = l2 ∧ t.lo = lo ∧ t.parsed = l2 ++ lo ∧
      t.escLen = 2 ∧ t.payLen = p.length + 1 ∧ t.crc = crcRun s.cfg (scan p ++ [l1]) ∧
      Memory.readBytes t.outMem 0 t.outLen =
        some (start :: scan p ++ [l1, hiByte t.crc, loByte t.crc, stop])

/-! ### FULL_DECODE -/

/-- `FULL_DECODE` (spec/44_full_decode.md R185), on every frame: the whole next state. The mode written is the parameter `MODE_AFTER_FULL` (spec/00_scope.md R10), `decoded` in R184 and by the spec's decision D9; that it is a parameter is the model's choice (log 3). Frames below five bytes complete by the spec's decision D13 (log 23). One transition per command, `phase` and `kind` are the model's (logs 11, 19, 27). -/
def Obligations.FullDecodeResult : Prop :=
  ∀ (s : State) (f : List Byte), s.status = .fresh → s.grain = .atomic → Loaded f s →
    exec .fullDecode s = .next { s with
      outMem := Memory.writeBytes s.outMem 0 (scan f)
      outLen := (scan f).length
      mode := s.cfg.modeAfterFull
      status := .done
      i := f.length
      o := (scan f).length
      phase := .admission
      kind := .full }

/-- On a well-formed frame `FULL_DECODE` yields start marker, payload, the wire checksum de-stuffed, and the terminator (R186 item 2), also where `DECODE` misreads it. -/
def Obligations.FullDecodeOfEncodedFrame : Prop :=
  ∀ (s : State) (p : List Byte), s.status = .fresh → s.grain = .atomic → Loaded (frameOf s.cfg p) s →
    ∃ t, exec .fullDecode s = .next t ∧ t.status = .done ∧
      Memory.readBytes t.outMem 0 t.outLen =
        some (startMarker :: p ++ [hiByte (crcRun s.cfg p), loByte (crcRun s.cfg p), endMarker])

/-! ### Commands and faults -/

/-- `NOP` (spec/45_session_control.md R193, the spec's decision D3). -/
def Obligations.NopChangesNothing : Prop := ∀ s : State, exec .nop s = .next s

/-- Code `11` (R194, the spec's decision D15): `STATE <- FAULT`, `FAULT_CODE <- 3` in every other `STATE`, nothing in `FAULT`. Of the model's own phase and draw counter (logs 5, 27) nothing is said. -/
def Obligations.ReservedCommandFaults : Prop :=
  ∀ s : State,
    (s.status ≠ .fault →
      ∃ p d, exec .reservedCmd s = .next { s with status := .fault, faultCode := 3, phase := p, draws := d }) ∧
    (s.status = .fault → exec .reservedCmd s = .next s)

/-- A fault is sticky (spec/60_exceptions.md R246, the spec's decision D16): in `FAULT` every command is ignored. -/
def Obligations.CommandsAreIgnoredInFault : Prop :=
  ∀ (s : State) (i : Instr), i ∈ [Instr.nop, .decode, .fullDecode, .reservedCmd] → s.status = .fault →
    exec i s = .next s

/-- Fault entry (R245, codes of R241): `STATE` and `FAULT_CODE`, unless in `FAULT` already, and no other register or memory of the spec. -/
def Obligations.RaiseWritesStateAndCodeOnly : Prop :=
  ∀ (f : Trap) (s : State),
    (s.status = .fault → raise f s = s) ∧
    (s.status ≠ .fault → (raise f s).status = .fault ∧
      (raise f s).faultCode =
        match f with
        | .frameTooShort _ => 1
        | .sessionReuse _ => 2
        | .reservedCommand _ => 3
        | .lenOverCapacity _ => 4) ∧
    (raise f s).cfg = s.cfg ∧ (raise f s).inMem = s.inMem ∧ (raise f s).len = s.len ∧
    (raise f s).outMem = s.outMem ∧ (raise f s).outLen = s.outLen ∧ (raise f s).crc = s.crc ∧
    (raise f s).parsed = s.parsed ∧ (raise f s).valid = s.valid ∧ (raise f s).mode = s.mode ∧
    (raise f s).escLen = s.escLen ∧ (raise f s).payLen = s.payLen ∧ (raise f s).hi = s.hi ∧
    (raise f s).lo = s.lo ∧ (raise f s).i = s.i ∧ (raise f s).o = s.o ∧
    (raise f s).requests = s.requests ∧ (raise f s).reply = s.reply

/-- The order of the checks (R248): `FAULT` first, then the reserved code, then `SessionReuse`, then the two `FrameTooShort` checks. -/
def Obligations.FaultPriority : Prop :=
  ∀ s : State,
    (s.status = .fault → ∀ i ∈ [Instr.nop, .decode, .fullDecode, .reservedCmd], exec i s = .next s) ∧
    (s.status ≠ .fault → ∃ t, exec .reservedCmd s = .next t ∧ t.status = .fault ∧ t.faultCode = 3) ∧
    (s.status ≠ .fault → s.status ≠ .fresh →
      (∃ t, exec .decode s = .next t ∧ t.status = .fault ∧ t.faultCode = 2) ∧
      ∃ t, exec .fullDecode s = .next t ∧ t.status = .fault ∧ t.faultCode = 2) ∧
    (s.status = .fresh → s.len < 5 → ∃ t, exec .decode s = .next t ∧ t.status = .fault ∧ t.faultCode = 1) ∧
    (s.status = .fresh → s.grain = .atomic → ∀ a b c d e : Byte, Loaded [a, b, c, d, e] s →
      (esc a b).2 = true → (esc c d).2 = true →
      ∃ t, exec .decode s = .next t ∧ t.status = .fault ∧ t.faultCode = 1)

/-- Run step by step, an admitted command enters `BUSY`: `DECODE` goes on to CSX, `FULL_DECODE` to its scan (spec/43_decode.md R160, `P_ADMIT`; log 11). -/
def Obligations.StepwiseAdmissionEntersBusy : Prop :=
  ∀ s : State, s.status = .fresh → s.grain = .stepwise →
    (5 ≤ s.len → exec .decode s = .next { s with status := .busy, phase := .csx }) ∧
    exec .fullDecode s = .next { s with status := .busy, phase := .scan, i := 0, o := 0, kind := .full }

/-! ### Session control -/

/-- Power-on (spec/70_reset_and_hazards.md R270): the session of the empty frame; `DECODE` then faults and `FULL_DECODE` completes with `OUT_LEN = 0`. What the unwritten registers hold is not stated (log 4). -/
def Obligations.PowerOnIsTheEmptySession : Prop :=
  State.reset.len = 0 ∧ State.reset.inMem = [] ∧ State.reset.outMem = [] ∧ State.reset.crc = 0xFFFF ∧
  State.reset.mode = .raw ∧ State.reset.status = .fresh ∧ State.reset.faultCode = 0 ∧ State.reset.i = 0 ∧
  State.reset.o = 0 ∧
  (∃ t, exec .decode State.reset = .next t ∧ t.status = .fault ∧ t.faultCode = 1) ∧
  ∃ t, exec .fullDecode State.reset = .next t ∧ t.status = .done ∧ t.outLen = 0

/-- `LOAD` (spec/45_session_control.md R190), in every `STATE`: the frame in `IN`, the reset values of R40, every cell of `OUT` unwritten, the raw frame in view. What the unwritten registers hold is not stated (log 4). -/
def Obligations.LoadConstructsSession : Prop :=
  ∀ (s : State) (f : List Byte), (∀ m, s.cfg.maxLen = some m → f.length ≤ m.val) →
    ∃ t, exec (.load f) s = .next t ∧ (∀ a, Memory.read t.inMem a = f[a]?) ∧ t.len = f.length ∧
      t.crc = 0xFFFF ∧ t.mode = .raw ∧ t.status = .fresh ∧ t.faultCode = 0 ∧ t.i = 0 ∧ t.o = 0 ∧
      (∀ a, Memory.read t.outMem a = none) ∧ t.cfg = s.cfg ∧ t.requests = s.requests ∧
      viewOf t = some ⟨f, .raw⟩

/-- Nothing of the previous session is left after `LOAD` (spec/70_reset_and_hazards.md R272): it depends on the parameters and on the model's own fields only (logs 5, 9, 11). -/
def Obligations.LoadForgetsPreviousSession : Prop :=
  ∀ (s s' : State) (f : List Byte), s.cfg = s'.cfg → s.requests = s'.requests → s.grain = s'.grain →
    s.draws = s'.draws → (∀ m, s.cfg.maxLen = some m → f.length ≤ m.val) →
    exec (.load f) s = exec (.load f) s'

/-- A frame over the capacity (R191): refused with code 4, nothing at all where the block is in `FAULT` already; an unbounded capacity never raises it. Of the model's own phase and draw counter (logs 5, 27) nothing is said. -/
def Obligations.LoadOverCapacityFaults : Prop :=
  ∀ (s : State) (f : List Byte),
    (∀ m, s.cfg.maxLen = some m → m.val < f.length →
      (s.status ≠ .fault →
        ∃ p d, exec (.load f) s = .next { s with status := .fault, faultCode := 4, phase := p, draws := d }) ∧
      (s.status = .fault → exec (.load f) s = .next s)) ∧
    (s.cfg.maxLen = none → ∃ t, exec (.load f) s = .next t ∧ t.status = .fresh)

/-- `STATUS` (spec/10_state.md R37): `STATE` and `FAULT_CODE` in every `STATE`, `MODE` outside `FAULT`, `VALID` in `DONE`; no side effect (spec/45_session_control.md R195). The other bits are free (log 13). -/
def Obligations.StatusReadsItsFields : Prop :=
  ∀ s : State, ∃ v : BitVec 8, exec (.readOut (.reg 1)) s = .next { s with reply := .status v } ∧
    v.extractLsb' 4 4 = s.faultCode ∧
    v.extractLsb' 0 2 =
      (match s.status with
        | .fresh => 0
        | .done => 1
        | .fault => 2
        | .busy => 3) ∧
    (s.status ≠ .fault → v.extractLsb' 2 1 =
      match s.mode with
      | .raw => 0
      | .decoded => 1) ∧
    (s.status = .done → v.extractLsb' 3 1 = if s.valid then 1 else 0)

/-- The results as the host reads them in `DONE` (R195; the registers of spec/10_state.md R37). Model's choices (log 13): `LEN` reads as itself in every `STATE`, in `FAULT` too, where R195 calls only `STATUS` meaningful and R245 keeps `LEN` defined; and `PARSED`, which `FULL_DECODE` leaves unwritten, reads in `DONE` as what its register holds, a free value there (log 4). In `BUSY` the clause about `LEN` is log 16's. -/
def Obligations.ResultRegistersRead : Prop :=
  ∀ s : State,
    exec (.readOut (.reg 2)) s = .next { s with reply := .index s.len } ∧
    (s.status = .done →
      exec (.readOut (.reg 3)) s = .next { s with reply := .index s.outLen } ∧
      exec (.readOut (.reg 4)) s = .next { s with reply := .half s.crc } ∧
      exec (.readOut (.reg 5)) s = .next { s with reply := .half s.parsed } ∧
      ∀ (a : Nat) (b : Byte), a < s.outLen → Memory.read s.outMem a = some b →
        exec (.readOut (.out a)) s = .next { s with reply := .byte b })

/-- A read-out changes nothing but the answer (R195; spec/70_reset_and_hazards.md R280). That every well-formed one answers in every `STATE` is the model's choice: outside `DONE` the answer is a free value (log 13; spec/10_state.md R41 and spec/93_implementation_defined.md U5 would allow a refusal as well), in `BUSY`, where R277 gives the host no such read, no step asks for one (log 16), and that the answer goes to `reply` is log 12. -/
def Obligations.ReadOutHasNoSideEffect : Prop :=
  ∀ (s : State) (sel : ReadSel), (Instr.readOut sel).wellFormed = true →
    ∃ r, exec (.readOut sel) s = .next { s with reply := r }

/-- `x[0]` cannot be read, `x[1]` to `x[5]` cannot be written, `x[6]` and above do not exist (spec/10_state.md R37; log 17). -/
def Obligations.ForbiddenRegisterAccessIsRefused : Prop :=
  ∀ (s : State) (n v : Nat) (rest : List Request),
    exec (.readOut (.reg 0)) s = .refused (.writeOnlyRegister 0) ∧
    (6 ≤ n → exec (.readOut (.reg n)) s = .refused (.noSuchRegister n)) ∧
    (s.phase = .admission → s.requests = .write n v :: rest →
      (1 ≤ n → n ≤ 5 → step s = .refused (.readOnlyRegister n)) ∧
      (6 ≤ n → step s = .refused (.noSuchRegister n)))

/-! ### Steps -/

/-- With no command in progress the step takes the host's oldest request and runs its instruction; a write of `CMD` is decoded by its low two bits (R192). With none it does nothing (log 9). -/
def Obligations.StepRunsHostRequest : Prop :=
  ∀ (s : State) (rest : List Request), s.phase = .admission →
    (s.requests = [] → step s = .next s) ∧
    (∀ f, s.requests = .load f :: rest → step s = exec (.load f) { s with requests := rest }) ∧
    (∀ sel, s.requests = .read sel :: rest → step s = exec (.readOut sel) { s with requests := rest }) ∧
    (∀ b, s.requests = .encode b :: rest → step s = exec (encodeLookupOf b) { s with requests := rest }) ∧
    ∀ v, s.requests = .write 0 v :: rest →
      step s = exec (commandOf (BitVec.ofNat 2 v)) { s with requests := rest }

/-- In `P_SCAN` the step runs the symbol that the bytes at the read index decode to (spec/20_memory.md R54), then chooses the next phase (spec/43_decode.md R160). -/
def Obligations.StepRunsDecodedSymbol : Prop :=
  ∀ (s : State) (b0 : Byte) (more left : List Byte) (i : Instr), s.phase = .scan → s.i < scanLen s →
    Memory.read s.inMem (scanBase s + s.i) = some b0 →
    (if 2 ≤ scanLen s - s.i then ∃ b1, Memory.read s.inMem (scanBase s + s.i + 1) = some b1 ∧ more = [b1]
      else more = []) →
    decode .wire (b0 :: more) = .ok (i, left) →
    (∀ t, exec i s = .next t →
      step s = .next { t with phase := if t.i < scanLen t then .scan else .asm }) ∧
    (∀ f, exec i s = .fault f → step s = .fault f)

/-- In `P_CSX` the step runs `CSX`; if that raised the command is over, else the start byte is copied and the scan begins (R152, R160). -/
def Obligations.StepRunsExtraction : Prop :=
  ∀ (s u : State) (b : Byte), s.phase = .csx → exec .csx s = .next u →
    (u.status = .fault → step s = .next u) ∧
    (u.status ≠ .fault → Memory.read u.inMem 0 = some b → 0 < u.len →
      step s = .next { u with
        outMem := Memory.write u.outMem 0 b, i := 0, o := 0, kind := .decode, phase := .scan })

/-- While a command is in progress the host has no move (spec/70_reset_and_hazards.md R277): no request is taken, no answer given, no frame loaded. -/
def Obligations.HostHasNoMoveWhileBusy : Prop :=
  ∀ s t : State, s.phase ≠ .admission → step s = .next t →
    t.requests = s.requests ∧ t.reply = s.reply ∧ t.inMem = s.inMem ∧ t.len = s.len

/-- The invariant holds at power-on. -/
def Obligations.ResetMeetsInvariant : Prop := Inv State.reset

/-- Every step keeps the invariant: `IN` holds the frame, `OUT` is in canonical form within its capacity, `FAULT_CODE` fits `STATE` (spec/10_state.md R31), a scan has emitted `SCAN` of what it consumed and the CRC is that of exactly those bytes (spec/43_decode.md R160), and a completed command left what R42 says. -/
def Obligations.StepKeepsInvariant : Prop := ∀ s t : State, Inv s → step s = .next t → Inv t

/-- A good state never meets a model fault: every access of an admitted command is in bounds (spec/20_memory.md R60). -/
def Obligations.GoodStateNeverStops : Prop := ∀ (s : State) (f : Fault), Inv s → step s ≠ .fault f

/-- What every completed command leaves (spec/10_state.md R42 items 1 to 3; R21): `OUT_LEN ≤ LEN`, the cells below `OUT_LEN` and no others written; after `DECODE` the start byte, the terminator and the computed checksum where R42 says, the CRC that of the decoded payload, the flag the comparison; after `FULL_DECODE` the CRC at its seed. -/
def Obligations.CompletedSessionLaws : Prop :=
  ∀ s : State, Inv s → s.status = .done →
    s.outLen ≤ s.len ∧ (∀ a, (Memory.read s.outMem a).isSome = true ↔ a < s.outLen) ∧
    (s.kind = .decode →
      s.mode = .decoded ∧ (s.valid = true ↔ s.crc = s.parsed) ∧ 4 ≤ s.outLen ∧
      Memory.read s.outMem 0 = Memory.read s.inMem 0 ∧
      Memory.read s.outMem (s.outLen - 1) = Memory.read s.inMem (s.len - 1) ∧
      Memory.read s.outMem (s.outLen - 3) = some (hiByte s.crc) ∧
      Memory.read s.outMem (s.outLen - 2) = some (loByte s.crc) ∧
      ∃ p, Memory.readBytes s.outMem 1 (s.outLen - 4) = some p ∧ s.crc = crcRun s.cfg p) ∧
    (s.kind = .full → s.crc = 0xFFFF)

/-- The frame changes only by `LOAD` (spec/10_state.md R26, R33, R42 item 4), the parameters by nothing (R35). -/
def Obligations.OnlyLoadChangesTheFrame : Prop :=
  ∀ s t : State, step s = .next t →
    t.cfg = s.cfg ∧
    (t.inMem = s.inMem ∧ t.len = s.len ∨ ∃ f rest, s.phase = .admission ∧ s.requests = .load f :: rest)

/-- The only way out of `FAULT` is `LOAD` (spec/60_exceptions.md R249), which constructs a new session and clears the code; every other step there keeps `FAULT_CODE`. -/
def Obligations.OnlyLoadLeavesFault : Prop :=
  ∀ s t : State, PhaseFits s → s.status = .fault → step s = .next t →
    (t.status = .fault ∧ t.faultCode = s.faultCode) ∨
    (t.status = .fresh ∧ t.faultCode = 0 ∧
      ∃ f rest, s.requests = .load f :: rest ∧ t = freshSession f { s with requests := rest })

/-- The lifecycle (spec/10_state.md R30; spec/45_session_control.md R196): a step that changes `STATE` is one of the listed transitions, and one that stays in `DONE` leaves the results as they are ("never decoded twice"). -/
def Obligations.LifecycleTransitions : Prop :=
  ∀ s t : State, PhaseFits s → step s = .next t →
    match s.status, t.status with
    | _, .fresh => s.status = .fresh ∨ ∃ f rest, s.requests = .load f :: rest
    | .fresh, .done | .busy, .done => True
    | .done, .done =>
      t.outMem = s.outMem ∧ t.outLen = s.outLen ∧ t.crc = s.crc ∧ t.parsed = s.parsed ∧ t.valid = s.valid ∧
        t.mode = s.mode
    | .fault, .done => False
    | .fresh, .fault | .done, .fault | .busy, .fault | .fault, .fault => True
    | .fresh, .busy | .busy, .busy => True
    | .done, .busy | .fault, .busy => False

/-- A scan step advances `I` by one or two and `O` by one, never past the scan length, and `O ≤ I` (spec/10_state.md R24, R25). -/
def Obligations.ScanStepAdvances : Prop :=
  ∀ s : State, Inv s → s.phase = .scan → s.i < scanLen s →
    ∃ t, step s = .next t ∧ (t.i = s.i + 1 ∨ t.i = s.i + 2) ∧ t.o = s.o + 1 ∧ t.i ≤ scanLen t ∧
      scanLen t = scanLen s ∧ t.o ≤ t.i

/-- The automaton refines the atomic command (spec/43_decode.md R160): from the same session, running the two decode commands step by step ends in the very state the atomic transition gives, within `LEN + 3` steps (spec/70_reset_and_hazards.md R286). -/
def Obligations.StepwiseRunRefinesAtomicCommand : Prop :=
  ∀ (s t : State) (v : Nat), FrameHeld s → s.status = .fresh → s.phase = .admission → s.grain = .atomic →
    (BitVec.ofNat 2 v = 0b01 ∨ BitVec.ofNat 2 v = 0b10) →
    exec (commandOf (BitVec.ofNat 2 v)) s = .next t →
    ∃ n, n ≤ s.len + 3 ∧
      Host.Core.run core n { s with grain := .stepwise, requests := .write 0 v :: s.requests } =
        .next { t with grain := .stepwise }

/-! ### The consumer -/

/-- What the block's outputs must make true for its consumer (spec/48_cursor_reader_consumer.md R213, R221, R227): after `DECODE` and with the start byte consumed, the remaining length is the number of decoded payload bytes, and reading the content gives exactly them. -/
def Obligations.ConsumerContentIsThePayload : Prop :=
  ∀ s t : State, FrameHeld s → ReadyAtomic s → exec .decode s = .next t → t.status = .done →
    ∃ (r r1 r2 : Reader) (start : Byte) (p : List Byte), openReader t = some r ∧ r.readStart = .ok ([start], r1) ∧
      r1.remaining = .ok t.o ∧ r1.readContent 0 = .ok (p, r2) ∧ Memory.readBytes t.outMem 1 t.o = some p ∧
      r2.remaining = .ok 0

/-- A reader held across a decode command shares the session's buffer (spec/48_cursor_reader_consumer.md R206; spec/10_state.md R38, R43): it showed the raw frame, and shows `OUT` afterwards, or nothing where the command faulted (R38 has no view in `FAULT`; for a reader already open, log 30). Its cursor is not specified there, so `moved` is any function (log 30). That the mode is the block's `MODE` covers `MODE_AFTER_FULL` (log 3). -/
def Obligations.HeldReaderSeesTheReplacedView : Prop :=
  ∀ (moved : Nat → Nat) (i : Instr) (s t : State) (r : Reader), (i = .decode ∨ i = .fullDecode) →
    FrameHeld s → ReadyAtomic s → readerAt r.cur s = some r → exec i s = .next t →
    r.view = frameBytes s ∧ r.mode = s.mode ∧
    (t.status = .done → ∃ r' : Reader, r.follow moved s t = some r' ∧
      Memory.readBytes t.outMem 0 t.outLen = some r'.view ∧ r'.mode = t.mode ∧ r'.cur = moved r.cur) ∧
    (t.status ≠ .done → t.status = .fault ∧ r.follow moved s t = none)
end

