-- ==== Sys2Proof/Laws/Escape.lean ====
section
/-! SUPPORT. The laws of the Escape Table and of `SCAN` (spec/40_escape_table.md R105). -/

namespace Sys2Proof.Machine

/-- The four windows that match, and what they give (R101). -/
theorem esc_matched_cases {b0 b1 : Byte} (h : (esc b0 b1).2 = true) :
    (b0 = 0x5A ∧ b1 = 0x01 ∧ (esc b0 b1).1 = 0x5B) ∨ (b0 = 0x5A ∧ b1 = 0x02 ∧ (esc b0 b1).1 = 0x5A) ∨
      (b0 = 0x5E ∧ b1 = 0x01 ∧ (esc b0 b1).1 = 0x5D) ∨ (b0 = 0x5E ∧ b1 = 0x02 ∧ (esc b0 b1).1 = 0x5E) := by
  unfold esc at h ⊢
  split_ifs at h ⊢ <;> simp_all

/-- A window that does not match gives its first byte (R101). -/
theorem esc_unmatched {b0 b1 : Byte} (h : (esc b0 b1).2 = false) : (esc b0 b1).1 = b0 := by
  unfold esc at h ⊢
  split_ifs at h ⊢ <;> simp_all

/-- A byte that is no lead byte begins no escape sequence (R102). -/
theorem esc_of_not_lead {b0 : Byte} (h : b0 ≠ 0x5A) (h' : b0 ≠ 0x5E) (b1 : Byte) : esc b0 b1 = (b0, false) := by
  unfold esc; split_ifs <;> simp_all

/-- A byte with no escape sequence is no lead byte. -/
theorem escEnc_none_not_lead {b : Byte} (h : escEnc b = none) : b ≠ 0x5A ∧ b ≠ 0x5E := by
  unfold escEnc at h
  split_ifs at h <;> simp_all

/-- What `ESC_ENC` gives, `ESC` takes back (R105 item 2). -/
theorem esc_of_escEnc {b b0 b1 : Byte} (h : escEnc b = some (b0, b1)) : esc b0 b1 = (b, true) := by
  unfold escEnc at h
  split_ifs at h with h1 h2 h3 h4 <;> cases h <;> subst b <;> decide

@[simp] theorem scan_nil : scan [] = [] := rfl
@[simp] theorem scan_single (b : Byte) : scan [b] = [b] := rfl

theorem scan_matched {b0 b1 : Byte} (h : (esc b0 b1).2 = true) (w : List Byte) :
    scan (b0 :: b1 :: w) = (esc b0 b1).1 :: scan w := by simp [scan, h]

theorem scan_unmatched {b0 b1 : Byte} (h : (esc b0 b1).2 = false) (w : List Byte) :
    scan (b0 :: b1 :: w) = b0 :: scan (b1 :: w) := by simp [scan, h]

theorem scan_not_lead {b : Byte} (h : b ≠ 0x5A) (h' : b ≠ 0x5E) (w : List Byte) : scan (b :: w) = b :: scan w := by
  cases w with
  | nil => rfl
  | cons b1 w => exact scan_unmatched (by rw [esc_of_not_lead h h']) w

/-- The wire form of one byte scans back to it, whatever follows (R105 item 1). -/
theorem scan_stuffByte_append (b : Byte) (w : List Byte) : scan (stuffByte b ++ w) = b :: scan w := by
  unfold stuffByte
  split
  next b0 b1 h =>
    have h' := esc_of_escEnc h
    simp [scan, h']
  next h =>
    have h' := escEnc_none_not_lead h
    exact scan_not_lead h'.1 h'.2 w

theorem stuff_cons (b : Byte) (p : List Byte) : stuff (b :: p) = stuffByte b ++ stuff p := rfl

/-- A stuffed string scans back, whatever follows it. -/
theorem scan_stuff_append (p w : List Byte) : scan (stuff p ++ w) = p ++ scan w := by
  induction p with
  | nil => rfl
  | cons b p ih => rw [stuff_cons, List.append_assoc, scan_stuffByte_append, ih, List.cons_append]

/-! ### The decoder and the Escape Table agree (spec/30_encoding.md R75, R83) -/

/-- A window that matches decodes to the `ESC2` symbol of its byte. -/
theorem escSymbol_of_matched {b0 b1 : Byte} (h : (esc b0 b1).2 = true) :
    ∃ i, escSymbol (b0 ++ b1) = some i ∧ symbolByte i = some (esc b0 b1).1 := by
  rcases esc_matched_cases h with ⟨rfl, rfl, -⟩ | ⟨rfl, rfl, -⟩ | ⟨rfl, rfl, -⟩ | ⟨rfl, rfl, -⟩ <;> decide

@[simp] theorem hiByte_joinBytes (b0 b1 : Byte) : hiByte (joinBytes b0 b1) = b0 :=
  BitVec.extractLsb'_append_eq_left

@[simp] theorem loByte_joinBytes (b0 b1 : Byte) : loByte (joinBytes b0 b1) = b1 :=
  BitVec.extractLsb'_append_eq_right

theorem joinBytes_inj {b0 b1 c0 c1 : Byte} : joinBytes b0 b1 = joinBytes c0 c1 ↔ b0 = c0 ∧ b1 = c1 := by
  constructor
  · intro h
    have h1 := congrArg hiByte h
    have h0 := congrArg loByte h
    simp only [hiByte_joinBytes, loByte_joinBytes] at h1 h0
    exact ⟨h1, h0⟩
  · rintro ⟨rfl, rfl⟩; rfl

theorem hiByte_toNat (v : Half) : (hiByte v).toNat = v.toNat / 256 := by
  have := v.isLt
  rw [hiByte, BitVec.extractLsb'_toNat, Nat.shiftRight_eq_div_pow]
  omega

theorem loByte_toNat (v : Half) : (loByte v).toNat = v.toNat % 256 := by
  rw [loByte, BitVec.extractLsb'_toNat, Nat.shiftRight_zero]

theorem joinBytes_toNat (b0 b1 : Byte) : (joinBytes b0 b1).toNat = b0.toNat * 256 + b1.toNat := by
  rw [joinBytes, BitVec.toNat_append, ← Nat.shiftLeft_add_eq_or_of_lt b1.isLt, Nat.shiftLeft_eq]

@[simp] theorem joinBytes_hiByte_loByte (v : Half) : joinBytes (hiByte v) (loByte v) = v := by
  apply BitVec.eq_of_toNat_eq
  rw [joinBytes_toNat, hiByte_toNat, loByte_toNat]
  omega

/-- A window that does not match is no `ESC2` symbol. -/
theorem escSymbol_of_unmatched {b0 b1 : Byte} (h : (esc b0 b1).2 = false) : escSymbol (b0 ++ b1) = none := by
  have w (c0 c1 : Byte) : (b0 ++ b1 : Half) = (c0 ++ c1 : Half) ↔ b0 = c0 ∧ b1 = c1 := joinBytes_inj
  have w1 := w 0x5A 0x01
  have w2 := w 0x5A 0x02
  have w3 := w 0x5E 0x01
  have w4 := w 0x5E 0x02
  unfold esc at h
  unfold escSymbol
  split_ifs at h ⊢ <;> simp_all

end Sys2Proof.Machine
end

