-- ==== Sys2Proof/Laws/Memory.lean ====
section
/-! SUPPORT. The laws of byte memories: reads after writes, the canonical form, and the memories of byte strings. -/

namespace Sys2Proof.Machine

@[simp] theorem Memory.read_nil (a : Nat) : Memory.read [] a = none := rfl

theorem Memory.read_cons (a : Nat) (b : Byte) (m : Memory) (k : Nat) :
    Memory.read ((a, b) :: m) k = if a = k then some b else Memory.read m k := rfl

/-- A read after a write: the byte written at its index, the old byte elsewhere. -/
theorem Memory.read_write (m : Memory) (k : Nat) (v : Byte) (a : Nat) :
    Memory.read (Memory.write m k v) a = if a = k then some v else Memory.read m a := by
  induction m with
  | nil => simp [Memory.write, Memory.read_cons, eq_comm]
  | cons c m ih =>
    obtain ⟨a', b⟩ := c
    simp only [Memory.write]
    by_cases h1 : k < a'
    · rw [if_pos h1, Memory.read_cons]
      simp only [eq_comm]
    · rw [if_neg h1]
      by_cases h2 : k = a'
      · subst h2
        rw [if_pos rfl, Memory.read_cons, Memory.read_cons]
        by_cases h3 : a = k
        · simp [h3]
        · simp [h3, Ne.symm h3]
      · rw [if_neg h2, Memory.read_cons, Memory.read_cons, ih]
        by_cases h3 : a = k
        · subst h3; simp [Ne.symm h2]
        · simp [h3]

@[simp] theorem Memory.read_write_same (m : Memory) (k : Nat) (v : Byte) :
    Memory.read (Memory.write m k v) k = some v := by simp [Memory.read_write]

theorem Memory.read_write_other {m : Memory} {k a : Nat} {v : Byte} (h : a ≠ k) :
    Memory.read (Memory.write m k v) a = Memory.read m a := by simp [Memory.read_write, h]

/-! ### The canonical form -/

/-- The canonical form as a statement about indices: it holds of the tail and every later index is larger. -/
theorem Memory.wf_cons {a : Nat} {b : Byte} {m : Memory} :
    Memory.wf ((a, b) :: m) = true ↔ Memory.wf m = true ∧ ∀ c ∈ m, a < c.1 := by
  induction m generalizing a b with
  | nil => simp [Memory.wf, Memory.unlisted]
  | cons c m ih =>
    obtain ⟨a', b'⟩ := c
    have h : Memory.wf ((a, b) :: (a', b') :: m) = true ↔ a < a' ∧ Memory.wf ((a', b') :: m) = true := by
      simp [Memory.wf, Memory.unlisted]
    rw [h, ih]
    constructor
    · rintro ⟨h1, h2, h3⟩
      refine ⟨⟨h2, h3⟩, ?_⟩
      intro c hc
      rcases List.mem_cons.1 hc with rfl | hc
      · exact h1
      · exact h1.trans (h3 c hc)
    · rintro ⟨⟨h2, h3⟩, h4⟩
      exact ⟨h4 (a', b') (by simp), h2, h3⟩

theorem Memory.mem_write {m : Memory} {k : Nat} {v : Byte} {c : Host.Cell}
    (h : c ∈ Memory.write m k v) : c = (k, v) ∨ c ∈ m := by
  induction m with
  | nil => simpa [Memory.write] using h
  | cons d m ih =>
    obtain ⟨a', b⟩ := d
    simp only [Memory.write] at h
    split_ifs at h
    · simpa using h
    · rcases List.mem_cons.1 h with h | h
      · exact .inl h
      · exact .inr (List.mem_cons_of_mem _ h)
    · rcases List.mem_cons.1 h with h | h
      · exact .inr (by simp [h])
      · exact (ih h).imp id (List.mem_cons_of_mem _)

/-- A write keeps the canonical form. -/
theorem Memory.write_keeps_wf {m : Memory} (h : Memory.wf m = true) (k : Nat) (v : Byte) :
    Memory.wf (Memory.write m k v) = true := by
  induction m with
  | nil => simp [Memory.write, Memory.wf, Memory.unlisted]
  | cons d m ih =>
    obtain ⟨a', b⟩ := d
    have hw := Memory.wf_cons.1 h
    simp only [Memory.write]
    split_ifs with h1 h2
    · refine Memory.wf_cons.2 ⟨h, ?_⟩
      intro c hc
      rcases List.mem_cons.1 hc with rfl | hc
      · exact h1
      · exact h1.trans (hw.2 c hc)
    · subst h2
      exact Memory.wf_cons.2 hw
    · refine Memory.wf_cons.2 ⟨ih hw.1, ?_⟩
      intro c hc
      rcases Memory.mem_write hc with rfl | hc
      · simp; omega
      · exact hw.2 c hc

theorem Memory.writeBytes_keeps_wf {m : Memory} (h : Memory.wf m = true) (a : Nat) (bs : List Byte) :
    Memory.wf (Memory.writeBytes m a bs) = true := by
  induction bs generalizing m a with
  | nil => exact h
  | cons b bs ih => exact ih (Memory.write_keeps_wf h a b) (a + 1)

/-! ### Memories of byte strings -/

theorem Memory.mem_ofBytesFrom {base : Nat} {bs : List Byte} {c : Host.Cell}
    (h : c ∈ Memory.ofBytesFrom base bs) : base ≤ c.1 ∧ c.1 < base + bs.length := by
  induction bs generalizing base with
  | nil => simp [Memory.ofBytesFrom] at h
  | cons b bs ih =>
    rcases List.mem_cons.1 h with rfl | h
    · simp
    · have := ih h
      simp only [List.length_cons]
      omega

theorem Memory.ofBytesFrom_wf (base : Nat) (bs : List Byte) : Memory.wf (Memory.ofBytesFrom base bs) = true := by
  induction bs generalizing base with
  | nil => rfl
  | cons b bs ih =>
    exact Memory.wf_cons.2 ⟨ih _, fun c hc => by have := Memory.mem_ofBytesFrom hc; omega⟩

@[simp] theorem Memory.ofBytes_wf (bs : List Byte) : Memory.wf (Memory.ofBytes bs) = true :=
  Memory.ofBytesFrom_wf 0 bs

@[simp] theorem Memory.ofBytes_nil : Memory.ofBytes [] = [] := rfl

theorem Memory.read_ofBytesFrom (base : Nat) (bs : List Byte) (a : Nat) :
    Memory.read (Memory.ofBytesFrom base bs) a = if a < base then none else bs[a - base]? := by
  induction bs generalizing base with
  | nil => simp [Memory.ofBytesFrom]
  | cons b bs ih =>
    rw [Memory.ofBytesFrom, Memory.read_cons, ih]
    rcases lt_trichotomy a base with h | h | h
    · rw [if_neg (by omega), if_pos (by omega), if_pos h]
    · subst h; simp
    · obtain ⟨k, rfl⟩ : ∃ k, a = base + 1 + k := ⟨a - base - 1, by omega⟩
      rw [if_neg (by omega), if_neg (by omega), if_neg (by omega), Nat.add_sub_cancel_left,
        show base + 1 + k - base = k + 1 by omega, List.getElem?_cons_succ]

@[simp] theorem Memory.read_ofBytes (bs : List Byte) (a : Nat) :
    Memory.read (Memory.ofBytes bs) a = bs[a]? := by
  simp [Memory.ofBytes, Memory.read_ofBytesFrom]

@[simp] theorem Memory.map_snd_ofBytesFrom (base : Nat) (bs : List Byte) :
    (Memory.ofBytesFrom base bs).map Prod.snd = bs := by
  induction bs generalizing base with
  | nil => rfl
  | cons b bs ih => simp [Memory.ofBytesFrom, ih]

@[simp] theorem Memory.map_snd_ofBytes (bs : List Byte) : (Memory.ofBytes bs).map Prod.snd = bs :=
  Memory.map_snd_ofBytesFrom 0 bs

theorem Memory.write_ofBytesFrom_end (base : Nat) (bs : List Byte) (b : Byte) :
    Memory.write (Memory.ofBytesFrom base bs) (base + bs.length) b = Memory.ofBytesFrom base (bs ++ [b]) := by
  induction bs generalizing base with
  | nil => simp [Memory.ofBytesFrom, Memory.write]
  | cons c bs ih =>
    have h := ih (base + 1)
    simp only [Memory.ofBytesFrom, List.cons_append, Memory.write, List.length_cons]
    rw [if_neg (by omega), if_neg (by omega), ← h]
    congr 2
    omega

/-- Writing the next byte of a string appends it. -/
theorem Memory.write_ofBytes_end {bs : List Byte} {a : Nat} (h : a = bs.length) (b : Byte) :
    Memory.write (Memory.ofBytes bs) a b = Memory.ofBytes (bs ++ [b]) := by
  subst h
  simpa [Memory.ofBytes] using Memory.write_ofBytesFrom_end 0 bs b

theorem Memory.writeBytes_ofBytes_end {bs : List Byte} {a : Nat} (h : a = bs.length) (cs : List Byte) :
    Memory.writeBytes (Memory.ofBytes bs) a cs = Memory.ofBytes (bs ++ cs) := by
  induction cs generalizing bs a with
  | nil => simp [Memory.writeBytes]
  | cons c cs ih =>
    rw [Memory.writeBytes, Memory.write_ofBytes_end h, ih (by simp [h]), List.append_assoc, List.singleton_append]

theorem Memory.writeBytes_append (m : Memory) (a : Nat) (bs cs : List Byte) :
    Memory.writeBytes m a (bs ++ cs) = Memory.writeBytes (Memory.writeBytes m a bs) (a + bs.length) cs := by
  induction bs generalizing m a with
  | nil => simp [Memory.writeBytes]
  | cons b bs ih => simp [Memory.writeBytes, ih, Nat.add_assoc, Nat.add_comm 1]

/-- A read after a write of several bytes. -/
theorem Memory.read_writeBytes (m : Memory) (a : Nat) (bs : List Byte) (k : Nat) :
    Memory.read (Memory.writeBytes m a bs) k =
      if a ≤ k ∧ k < a + bs.length then bs[k - a]? else Memory.read m k := by
  induction bs generalizing m a with
  | nil => simp [Memory.writeBytes]
  | cons b bs ih =>
    rw [Memory.writeBytes, ih, Memory.read_write]
    simp only [List.length_cons]
    rcases lt_trichotomy k a with h | h | h
    · rw [if_neg (by omega), if_neg (by omega), if_neg (by omega)]
    · subst h; simp
    · by_cases h2 : k < a + (bs.length + 1)
      · rw [if_pos (by omega), if_pos (by omega)]
        obtain ⟨j, rfl⟩ : ∃ j, k = a + 1 + j := ⟨k - a - 1, by omega⟩
        rw [Nat.add_sub_cancel_left, show a + 1 + j - a = j + 1 by omega, List.getElem?_cons_succ]
      · rw [if_neg (by omega), if_neg (by omega), if_neg (by omega)]

theorem Memory.mem_writeBytes {m : Memory} {a : Nat} {bs : List Byte} {c : Host.Cell}
    (h : c ∈ Memory.writeBytes m a bs) : (a ≤ c.1 ∧ c.1 < a + bs.length) ∨ c ∈ m := by
  induction bs generalizing m a with
  | nil => exact .inr h
  | cons b bs ih =>
    rcases ih h with h | h
    · left; simp only [List.length_cons]; omega
    · rcases Memory.mem_write h with rfl | h
      · left; simp
      · exact .inr h

/-- The bytes read back from where every one of them stands. -/
theorem Memory.readBytes_eq {m : Memory} {a : Nat} {bs : List Byte}
    (h : ∀ k < bs.length, Memory.read m (a + k) = bs[k]?) : Memory.readBytes m a bs.length = some bs := by
  induction bs generalizing a with
  | nil => rfl
  | cons b bs ih =>
    have h0 : Memory.read m a = some b := by simpa using h 0 (by simp)
    have h1 : Memory.readBytes m (a + 1) bs.length = some bs := by
      apply ih
      intro k hk
      have := h (k + 1) (by simp; omega)
      rw [show a + 1 + k = a + (k + 1) by omega, this, List.getElem?_cons_succ]
    simp [Memory.readBytes, h0, h1]

@[simp] theorem Memory.readBytes_ofBytes (bs : List Byte) :
    Memory.readBytes (Memory.ofBytes bs) 0 bs.length = some bs :=
  Memory.readBytes_eq fun k _ => by simp

@[simp] theorem Memory.readBytes_writeBytes (m : Memory) (a : Nat) (bs : List Byte) :
    Memory.readBytes (Memory.writeBytes m a bs) a bs.length = some bs :=
  Memory.readBytes_eq fun k hk => by
    rw [Memory.read_writeBytes, if_pos (by omega), Nat.add_sub_cancel_left]

end Sys2Proof.Machine
end

