-- ==== Sys2Proof/Laws/State.lean ====
section
/-! SUPPORT. One lemma per field and named update of the state, so that no later proof unfolds a record update. -/

namespace Sys2Proof.Machine

/-! ### `answer` -/

@[simp] theorem answer_cfg (r : Reply) (s : State) : (answer r s).cfg = s.cfg := rfl
@[simp] theorem answer_inMem (r : Reply) (s : State) : (answer r s).inMem = s.inMem := rfl
@[simp] theorem answer_len (r : Reply) (s : State) : (answer r s).len = s.len := rfl
@[simp] theorem answer_outMem (r : Reply) (s : State) : (answer r s).outMem = s.outMem := rfl
@[simp] theorem answer_outLen (r : Reply) (s : State) : (answer r s).outLen = s.outLen := rfl
@[simp] theorem answer_crc (r : Reply) (s : State) : (answer r s).crc = s.crc := rfl
@[simp] theorem answer_parsed (r : Reply) (s : State) : (answer r s).parsed = s.parsed := rfl
@[simp] theorem answer_valid (r : Reply) (s : State) : (answer r s).valid = s.valid := rfl
@[simp] theorem answer_mode (r : Reply) (s : State) : (answer r s).mode = s.mode := rfl
@[simp] theorem answer_status (r : Reply) (s : State) : (answer r s).status = s.status := rfl
@[simp] theorem answer_faultCode (r : Reply) (s : State) : (answer r s).faultCode = s.faultCode := rfl
@[simp] theorem answer_escLen (r : Reply) (s : State) : (answer r s).escLen = s.escLen := rfl
@[simp] theorem answer_payLen (r : Reply) (s : State) : (answer r s).payLen = s.payLen := rfl
@[simp] theorem answer_hi (r : Reply) (s : State) : (answer r s).hi = s.hi := rfl
@[simp] theorem answer_lo (r : Reply) (s : State) : (answer r s).lo = s.lo := rfl
@[simp] theorem answer_i (r : Reply) (s : State) : (answer r s).i = s.i := rfl
@[simp] theorem answer_o (r : Reply) (s : State) : (answer r s).o = s.o := rfl
@[simp] theorem answer_phase (r : Reply) (s : State) : (answer r s).phase = s.phase := rfl
@[simp] theorem answer_kind (r : Reply) (s : State) : (answer r s).kind = s.kind := rfl
@[simp] theorem answer_requests (r : Reply) (s : State) : (answer r s).requests = s.requests := rfl
@[simp] theorem answer_reply (r : Reply) (s : State) : (answer r s).reply = r := rfl
@[simp] theorem answer_grain (r : Reply) (s : State) : (answer r s).grain = s.grain := rfl
@[simp] theorem answer_draws (r : Reply) (s : State) : (answer r s).draws = s.draws := rfl

/-! ### `advance` -/

@[simp] theorem advance_cfg (n : Nat) (s : State) : (advance n s).cfg = s.cfg := rfl
@[simp] theorem advance_inMem (n : Nat) (s : State) : (advance n s).inMem = s.inMem := rfl
@[simp] theorem advance_len (n : Nat) (s : State) : (advance n s).len = s.len := rfl
@[simp] theorem advance_outMem (n : Nat) (s : State) : (advance n s).outMem = s.outMem := rfl
@[simp] theorem advance_outLen (n : Nat) (s : State) : (advance n s).outLen = s.outLen := rfl
@[simp] theorem advance_crc (n : Nat) (s : State) : (advance n s).crc = s.crc := rfl
@[simp] theorem advance_parsed (n : Nat) (s : State) : (advance n s).parsed = s.parsed := rfl
@[simp] theorem advance_valid (n : Nat) (s : State) : (advance n s).valid = s.valid := rfl
@[simp] theorem advance_mode (n : Nat) (s : State) : (advance n s).mode = s.mode := rfl
@[simp] theorem advance_status (n : Nat) (s : State) : (advance n s).status = s.status := rfl
@[simp] theorem advance_faultCode (n : Nat) (s : State) : (advance n s).faultCode = s.faultCode := rfl
@[simp] theorem advance_escLen (n : Nat) (s : State) : (advance n s).escLen = s.escLen := rfl
@[simp] theorem advance_payLen (n : Nat) (s : State) : (advance n s).payLen = s.payLen := rfl
@[simp] theorem advance_hi (n : Nat) (s : State) : (advance n s).hi = s.hi := rfl
@[simp] theorem advance_lo (n : Nat) (s : State) : (advance n s).lo = s.lo := rfl
@[simp] theorem advance_i (n : Nat) (s : State) : (advance n s).i = s.i + n := rfl
@[simp] theorem advance_o (n : Nat) (s : State) : (advance n s).o = s.o := rfl
@[simp] theorem advance_phase (n : Nat) (s : State) : (advance n s).phase = s.phase := rfl
@[simp] theorem advance_kind (n : Nat) (s : State) : (advance n s).kind = s.kind := rfl
@[simp] theorem advance_requests (n : Nat) (s : State) : (advance n s).requests = s.requests := rfl
@[simp] theorem advance_reply (n : Nat) (s : State) : (advance n s).reply = s.reply := rfl
@[simp] theorem advance_grain (n : Nat) (s : State) : (advance n s).grain = s.grain := rfl
@[simp] theorem advance_draws (n : Nat) (s : State) : (advance n s).draws = s.draws := rfl

/-! ### `enterBusy` -/

@[simp] theorem enterBusy_cfg (p : Phase) (s : State) : (enterBusy p s).cfg = s.cfg := rfl
@[simp] theorem enterBusy_inMem (p : Phase) (s : State) : (enterBusy p s).inMem = s.inMem := rfl
@[simp] theorem enterBusy_len (p : Phase) (s : State) : (enterBusy p s).len = s.len := rfl
@[simp] theorem enterBusy_outMem (p : Phase) (s : State) : (enterBusy p s).outMem = s.outMem := rfl
@[simp] theorem enterBusy_outLen (p : Phase) (s : State) : (enterBusy p s).outLen = s.outLen := rfl
@[simp] theorem enterBusy_crc (p : Phase) (s : State) : (enterBusy p s).crc = s.crc := rfl
@[simp] theorem enterBusy_parsed (p : Phase) (s : State) : (enterBusy p s).parsed = s.parsed := rfl
@[simp] theorem enterBusy_valid (p : Phase) (s : State) : (enterBusy p s).valid = s.valid := rfl
@[simp] theorem enterBusy_mode (p : Phase) (s : State) : (enterBusy p s).mode = s.mode := rfl
@[simp] theorem enterBusy_status (p : Phase) (s : State) : (enterBusy p s).status = .busy := rfl
@[simp] theorem enterBusy_faultCode (p : Phase) (s : State) : (enterBusy p s).faultCode = s.faultCode := rfl
@[simp] theorem enterBusy_escLen (p : Phase) (s : State) : (enterBusy p s).escLen = s.escLen := rfl
@[simp] theorem enterBusy_payLen (p : Phase) (s : State) : (enterBusy p s).payLen = s.payLen := rfl
@[simp] theorem enterBusy_hi (p : Phase) (s : State) : (enterBusy p s).hi = s.hi := rfl
@[simp] theorem enterBusy_lo (p : Phase) (s : State) : (enterBusy p s).lo = s.lo := rfl
@[simp] theorem enterBusy_i (p : Phase) (s : State) : (enterBusy p s).i = s.i := rfl
@[simp] theorem enterBusy_o (p : Phase) (s : State) : (enterBusy p s).o = s.o := rfl
@[simp] theorem enterBusy_phase (p : Phase) (s : State) : (enterBusy p s).phase = p := rfl
@[simp] theorem enterBusy_kind (p : Phase) (s : State) : (enterBusy p s).kind = s.kind := rfl
@[simp] theorem enterBusy_requests (p : Phase) (s : State) : (enterBusy p s).requests = s.requests := rfl
@[simp] theorem enterBusy_reply (p : Phase) (s : State) : (enterBusy p s).reply = s.reply := rfl
@[simp] theorem enterBusy_grain (p : Phase) (s : State) : (enterBusy p s).grain = s.grain := rfl
@[simp] theorem enterBusy_draws (p : Phase) (s : State) : (enterBusy p s).draws = s.draws := rfl

/-! ### `complete` -/

@[simp] theorem complete_cfg (m : Mode) (s : State) : (complete m s).cfg = s.cfg := rfl
@[simp] theorem complete_inMem (m : Mode) (s : State) : (complete m s).inMem = s.inMem := rfl
@[simp] theorem complete_len (m : Mode) (s : State) : (complete m s).len = s.len := rfl
@[simp] theorem complete_outMem (m : Mode) (s : State) : (complete m s).outMem = s.outMem := rfl
@[simp] theorem complete_outLen (m : Mode) (s : State) : (complete m s).outLen = s.outLen := rfl
@[simp] theorem complete_crc (m : Mode) (s : State) : (complete m s).crc = s.crc := rfl
@[simp] theorem complete_parsed (m : Mode) (s : State) : (complete m s).parsed = s.parsed := rfl
@[simp] theorem complete_valid (m : Mode) (s : State) : (complete m s).valid = s.valid := rfl
@[simp] theorem complete_mode (m : Mode) (s : State) : (complete m s).mode = m := rfl
@[simp] theorem complete_status (m : Mode) (s : State) : (complete m s).status = .done := rfl
@[simp] theorem complete_faultCode (m : Mode) (s : State) : (complete m s).faultCode = s.faultCode := rfl
@[simp] theorem complete_escLen (m : Mode) (s : State) : (complete m s).escLen = s.escLen := rfl
@[simp] theorem complete_payLen (m : Mode) (s : State) : (complete m s).payLen = s.payLen := rfl
@[simp] theorem complete_hi (m : Mode) (s : State) : (complete m s).hi = s.hi := rfl
@[simp] theorem complete_lo (m : Mode) (s : State) : (complete m s).lo = s.lo := rfl
@[simp] theorem complete_i (m : Mode) (s : State) : (complete m s).i = s.i := rfl
@[simp] theorem complete_o (m : Mode) (s : State) : (complete m s).o = s.o := rfl
@[simp] theorem complete_phase (m : Mode) (s : State) : (complete m s).phase = .admission := rfl
@[simp] theorem complete_kind (m : Mode) (s : State) : (complete m s).kind = s.kind := rfl
@[simp] theorem complete_requests (m : Mode) (s : State) : (complete m s).requests = s.requests := rfl
@[simp] theorem complete_reply (m : Mode) (s : State) : (complete m s).reply = s.reply := rfl
@[simp] theorem complete_grain (m : Mode) (s : State) : (complete m s).grain = s.grain := rfl
@[simp] theorem complete_draws (m : Mode) (s : State) : (complete m s).draws = s.draws := rfl

/-! ### `setValid` -/

@[simp] theorem setValid_cfg (s : State) : (setValid s).cfg = s.cfg := rfl
@[simp] theorem setValid_inMem (s : State) : (setValid s).inMem = s.inMem := rfl
@[simp] theorem setValid_len (s : State) : (setValid s).len = s.len := rfl
@[simp] theorem setValid_outMem (s : State) : (setValid s).outMem = s.outMem := rfl
@[simp] theorem setValid_outLen (s : State) : (setValid s).outLen = s.outLen := rfl
@[simp] theorem setValid_crc (s : State) : (setValid s).crc = s.crc := rfl
@[simp] theorem setValid_parsed (s : State) : (setValid s).parsed = s.parsed := rfl
@[simp] theorem setValid_valid (s : State) : (setValid s).valid = (s.crc == s.parsed) := rfl
@[simp] theorem setValid_mode (s : State) : (setValid s).mode = s.mode := rfl
@[simp] theorem setValid_status (s : State) : (setValid s).status = s.status := rfl
@[simp] theorem setValid_faultCode (s : State) : (setValid s).faultCode = s.faultCode := rfl
@[simp] theorem setValid_escLen (s : State) : (setValid s).escLen = s.escLen := rfl
@[simp] theorem setValid_payLen (s : State) : (setValid s).payLen = s.payLen := rfl
@[simp] theorem setValid_hi (s : State) : (setValid s).hi = s.hi := rfl
@[simp] theorem setValid_lo (s : State) : (setValid s).lo = s.lo := rfl
@[simp] theorem setValid_i (s : State) : (setValid s).i = s.i := rfl
@[simp] theorem setValid_o (s : State) : (setValid s).o = s.o := rfl
@[simp] theorem setValid_phase (s : State) : (setValid s).phase = s.phase := rfl
@[simp] theorem setValid_kind (s : State) : (setValid s).kind = s.kind := rfl
@[simp] theorem setValid_requests (s : State) : (setValid s).requests = s.requests := rfl
@[simp] theorem setValid_reply (s : State) : (setValid s).reply = s.reply := rfl
@[simp] theorem setValid_grain (s : State) : (setValid s).grain = s.grain := rfl
@[simp] theorem setValid_draws (s : State) : (setValid s).draws = s.draws := rfl

/-! ### `updateCrc` -/

@[simp] theorem updateCrc_cfg (b : Byte) (s : State) : (updateCrc b s).cfg = s.cfg := rfl
@[simp] theorem updateCrc_inMem (b : Byte) (s : State) : (updateCrc b s).inMem = s.inMem := rfl
@[simp] theorem updateCrc_len (b : Byte) (s : State) : (updateCrc b s).len = s.len := rfl
@[simp] theorem updateCrc_outMem (b : Byte) (s : State) : (updateCrc b s).outMem = s.outMem := rfl
@[simp] theorem updateCrc_outLen (b : Byte) (s : State) : (updateCrc b s).outLen = s.outLen := rfl
@[simp] theorem updateCrc_crc (b : Byte) (s : State) : (updateCrc b s).crc = crcUpd s.cfg s.crc b := rfl
@[simp] theorem updateCrc_parsed (b : Byte) (s : State) : (updateCrc b s).parsed = s.parsed := rfl
@[simp] theorem updateCrc_valid (b : Byte) (s : State) : (updateCrc b s).valid = s.valid := rfl
@[simp] theorem updateCrc_mode (b : Byte) (s : State) : (updateCrc b s).mode = s.mode := rfl
@[simp] theorem updateCrc_status (b : Byte) (s : State) : (updateCrc b s).status = s.status := rfl
@[simp] theorem updateCrc_faultCode (b : Byte) (s : State) : (updateCrc b s).faultCode = s.faultCode := rfl
@[simp] theorem updateCrc_escLen (b : Byte) (s : State) : (updateCrc b s).escLen = s.escLen := rfl
@[simp] theorem updateCrc_payLen (b : Byte) (s : State) : (updateCrc b s).payLen = s.payLen := rfl
@[simp] theorem updateCrc_hi (b : Byte) (s : State) : (updateCrc b s).hi = s.hi := rfl
@[simp] theorem updateCrc_lo (b : Byte) (s : State) : (updateCrc b s).lo = s.lo := rfl
@[simp] theorem updateCrc_i (b : Byte) (s : State) : (updateCrc b s).i = s.i := rfl
@[simp] theorem updateCrc_o (b : Byte) (s : State) : (updateCrc b s).o = s.o := rfl
@[simp] theorem updateCrc_phase (b : Byte) (s : State) : (updateCrc b s).phase = s.phase := rfl
@[simp] theorem updateCrc_kind (b : Byte) (s : State) : (updateCrc b s).kind = s.kind := rfl
@[simp] theorem updateCrc_requests (b : Byte) (s : State) : (updateCrc b s).requests = s.requests := rfl
@[simp] theorem updateCrc_reply (b : Byte) (s : State) : (updateCrc b s).reply = s.reply := rfl
@[simp] theorem updateCrc_grain (b : Byte) (s : State) : (updateCrc b s).grain = s.grain := rfl
@[simp] theorem updateCrc_draws (b : Byte) (s : State) : (updateCrc b s).draws = s.draws := rfl

/-! ### `storeChecksum` -/

@[simp] theorem storeChecksum_cfg (f : ChecksumField) (s : State) : (storeChecksum f s).cfg = s.cfg := rfl
@[simp] theorem storeChecksum_inMem (f : ChecksumField) (s : State) : (storeChecksum f s).inMem = s.inMem := rfl
@[simp] theorem storeChecksum_len (f : ChecksumField) (s : State) : (storeChecksum f s).len = s.len := rfl
@[simp] theorem storeChecksum_outMem (f : ChecksumField) (s : State) : (storeChecksum f s).outMem = s.outMem := rfl
@[simp] theorem storeChecksum_outLen (f : ChecksumField) (s : State) : (storeChecksum f s).outLen = s.outLen := rfl
@[simp] theorem storeChecksum_crc (f : ChecksumField) (s : State) : (storeChecksum f s).crc = s.crc := rfl
@[simp] theorem storeChecksum_parsed (f : ChecksumField) (s : State) : (storeChecksum f s).parsed = joinBytes f.hi f.lo := rfl
@[simp] theorem storeChecksum_valid (f : ChecksumField) (s : State) : (storeChecksum f s).valid = s.valid := rfl
@[simp] theorem storeChecksum_mode (f : ChecksumField) (s : State) : (storeChecksum f s).mode = s.mode := rfl
@[simp] theorem storeChecksum_status (f : ChecksumField) (s : State) : (storeChecksum f s).status = s.status := rfl
@[simp] theorem storeChecksum_faultCode (f : ChecksumField) (s : State) : (storeChecksum f s).faultCode = s.faultCode := rfl
@[simp] theorem storeChecksum_escLen (f : ChecksumField) (s : State) : (storeChecksum f s).escLen = f.escLen := rfl
@[simp] theorem storeChecksum_payLen (f : ChecksumField) (s : State) : (storeChecksum f s).payLen = s.payLen := rfl
@[simp] theorem storeChecksum_hi (f : ChecksumField) (s : State) : (storeChecksum f s).hi = f.hi := rfl
@[simp] theorem storeChecksum_lo (f : ChecksumField) (s : State) : (storeChecksum f s).lo = f.lo := rfl
@[simp] theorem storeChecksum_i (f : ChecksumField) (s : State) : (storeChecksum f s).i = s.i := rfl
@[simp] theorem storeChecksum_o (f : ChecksumField) (s : State) : (storeChecksum f s).o = s.o := rfl
@[simp] theorem storeChecksum_phase (f : ChecksumField) (s : State) : (storeChecksum f s).phase = s.phase := rfl
@[simp] theorem storeChecksum_kind (f : ChecksumField) (s : State) : (storeChecksum f s).kind = s.kind := rfl
@[simp] theorem storeChecksum_requests (f : ChecksumField) (s : State) : (storeChecksum f s).requests = s.requests := rfl
@[simp] theorem storeChecksum_reply (f : ChecksumField) (s : State) : (storeChecksum f s).reply = s.reply := rfl
@[simp] theorem storeChecksum_grain (f : ChecksumField) (s : State) : (storeChecksum f s).grain = s.grain := rfl
@[simp] theorem storeChecksum_draws (f : ChecksumField) (s : State) : (storeChecksum f s).draws = s.draws := rfl

/-! ### `beginFull` -/

@[simp] theorem beginFull_cfg (s : State) : (beginFull s).cfg = s.cfg := rfl
@[simp] theorem beginFull_inMem (s : State) : (beginFull s).inMem = s.inMem := rfl
@[simp] theorem beginFull_len (s : State) : (beginFull s).len = s.len := rfl
@[simp] theorem beginFull_outMem (s : State) : (beginFull s).outMem = s.outMem := rfl
@[simp] theorem beginFull_outLen (s : State) : (beginFull s).outLen = s.outLen := rfl
@[simp] theorem beginFull_crc (s : State) : (beginFull s).crc = s.crc := rfl
@[simp] theorem beginFull_parsed (s : State) : (beginFull s).parsed = s.parsed := rfl
@[simp] theorem beginFull_valid (s : State) : (beginFull s).valid = s.valid := rfl
@[simp] theorem beginFull_mode (s : State) : (beginFull s).mode = s.mode := rfl
@[simp] theorem beginFull_status (s : State) : (beginFull s).status = s.status := rfl
@[simp] theorem beginFull_faultCode (s : State) : (beginFull s).faultCode = s.faultCode := rfl
@[simp] theorem beginFull_escLen (s : State) : (beginFull s).escLen = s.escLen := rfl
@[simp] theorem beginFull_payLen (s : State) : (beginFull s).payLen = s.payLen := rfl
@[simp] theorem beginFull_hi (s : State) : (beginFull s).hi = s.hi := rfl
@[simp] theorem beginFull_lo (s : State) : (beginFull s).lo = s.lo := rfl
@[simp] theorem beginFull_i (s : State) : (beginFull s).i = 0 := rfl
@[simp] theorem beginFull_o (s : State) : (beginFull s).o = 0 := rfl
@[simp] theorem beginFull_phase (s : State) : (beginFull s).phase = s.phase := rfl
@[simp] theorem beginFull_kind (s : State) : (beginFull s).kind = .full := rfl
@[simp] theorem beginFull_requests (s : State) : (beginFull s).requests = s.requests := rfl
@[simp] theorem beginFull_reply (s : State) : (beginFull s).reply = s.reply := rfl
@[simp] theorem beginFull_grain (s : State) : (beginFull s).grain = s.grain := rfl
@[simp] theorem beginFull_draws (s : State) : (beginFull s).draws = s.draws := rfl

/-! ### `raise` -/

@[simp] theorem raise_cfg (t : Trap) (s : State) : (raise t s).cfg = s.cfg := by unfold raise; split <;> rfl
@[simp] theorem raise_inMem (t : Trap) (s : State) : (raise t s).inMem = s.inMem := by unfold raise; split <;> rfl
@[simp] theorem raise_len (t : Trap) (s : State) : (raise t s).len = s.len := by unfold raise; split <;> rfl
@[simp] theorem raise_outMem (t : Trap) (s : State) : (raise t s).outMem = s.outMem := by unfold raise; split <;> rfl
@[simp] theorem raise_outLen (t : Trap) (s : State) : (raise t s).outLen = s.outLen := by unfold raise; split <;> rfl
@[simp] theorem raise_crc (t : Trap) (s : State) : (raise t s).crc = s.crc := by unfold raise; split <;> rfl
@[simp] theorem raise_parsed (t : Trap) (s : State) : (raise t s).parsed = s.parsed := by unfold raise; split <;> rfl
@[simp] theorem raise_valid (t : Trap) (s : State) : (raise t s).valid = s.valid := by unfold raise; split <;> rfl
@[simp] theorem raise_mode (t : Trap) (s : State) : (raise t s).mode = s.mode := by unfold raise; split <;> rfl
@[simp] theorem raise_escLen (t : Trap) (s : State) : (raise t s).escLen = s.escLen := by unfold raise; split <;> rfl
@[simp] theorem raise_payLen (t : Trap) (s : State) : (raise t s).payLen = s.payLen := by unfold raise; split <;> rfl
@[simp] theorem raise_hi (t : Trap) (s : State) : (raise t s).hi = s.hi := by unfold raise; split <;> rfl
@[simp] theorem raise_lo (t : Trap) (s : State) : (raise t s).lo = s.lo := by unfold raise; split <;> rfl
@[simp] theorem raise_i (t : Trap) (s : State) : (raise t s).i = s.i := by unfold raise; split <;> rfl
@[simp] theorem raise_o (t : Trap) (s : State) : (raise t s).o = s.o := by unfold raise; split <;> rfl
@[simp] theorem raise_kind (t : Trap) (s : State) : (raise t s).kind = s.kind := by unfold raise; split <;> rfl
@[simp] theorem raise_requests (t : Trap) (s : State) : (raise t s).requests = s.requests := by unfold raise; split <;> rfl
@[simp] theorem raise_reply (t : Trap) (s : State) : (raise t s).reply = s.reply := by unfold raise; split <;> rfl
@[simp] theorem raise_grain (t : Trap) (s : State) : (raise t s).grain = s.grain := by unfold raise; split <;> rfl

/-- After `raise` the block is in `FAULT`, whatever it was in. -/
@[simp] theorem raise_status (t : Trap) (s : State) : (raise t s).status = .fault := by
  unfold raise; split <;> simp_all

/-- In `FAULT` a further `raise` changes nothing: the first code is kept. -/
theorem raise_of_fault {s : State} (h : s.status = .fault) (t : Trap) : raise t s = s := by simp [raise, h]

/-- Outside `FAULT` a `raise` writes `STATE` and `FAULT_CODE`. -/
theorem raise_of_not_fault {s : State} (h : s.status ≠ .fault) (t : Trap) :
    raise t s =
      { s with status := .fault, faultCode := trapCode t, phase := .admission, draws := s.draws + 1 } := by
  simp [raise, h]

theorem raise_faultCode {s : State} (h : s.status ≠ .fault) (t : Trap) : (raise t s).faultCode = trapCode t := by
  simp [raise, h]

theorem raise_phase {s : State} (h : s.status ≠ .fault) (t : Trap) : (raise t s).phase = .admission := by
  simp [raise, h]

/-! ### `freshSession` -/

@[simp] theorem freshSession_cfg (f : List Byte) (s : State) : (freshSession f s).cfg = s.cfg := rfl
@[simp] theorem freshSession_inMem (f : List Byte) (s : State) : (freshSession f s).inMem = Memory.ofBytes f := rfl
@[simp] theorem freshSession_len (f : List Byte) (s : State) : (freshSession f s).len = f.length := rfl
@[simp] theorem freshSession_outMem (f : List Byte) (s : State) : (freshSession f s).outMem = [] := rfl
@[simp] theorem freshSession_outLen (f : List Byte) (s : State) : (freshSession f s).outLen = freeIndex s.cfg (s.draws + 1) .outLen := rfl
@[simp] theorem freshSession_crc (f : List Byte) (s : State) : (freshSession f s).crc = crcInit := rfl
@[simp] theorem freshSession_parsed (f : List Byte) (s : State) : (freshSession f s).parsed = Config.freeBits (s.draws + 1) .parsed 16 := rfl
@[simp] theorem freshSession_valid (f : List Byte) (s : State) : (freshSession f s).valid = (Config.freeBits (s.draws + 1) .valid 1).msb := rfl
@[simp] theorem freshSession_mode (f : List Byte) (s : State) : (freshSession f s).mode = .raw := rfl
@[simp] theorem freshSession_status (f : List Byte) (s : State) : (freshSession f s).status = .fresh := rfl
@[simp] theorem freshSession_faultCode (f : List Byte) (s : State) : (freshSession f s).faultCode = 0 := rfl
@[simp] theorem freshSession_escLen (f : List Byte) (s : State) : (freshSession f s).escLen = Config.freeBits (s.draws + 1) .escLen 3 := rfl
@[simp] theorem freshSession_payLen (f : List Byte) (s : State) : (freshSession f s).payLen = freeIndex s.cfg (s.draws + 1) .payLen := rfl
@[simp] theorem freshSession_hi (f : List Byte) (s : State) : (freshSession f s).hi = Config.freeBits (s.draws + 1) .hi 8 := rfl
@[simp] theorem freshSession_lo (f : List Byte) (s : State) : (freshSession f s).lo = Config.freeBits (s.draws + 1) .lo 8 := rfl
@[simp] theorem freshSession_i (f : List Byte) (s : State) : (freshSession f s).i = 0 := rfl
@[simp] theorem freshSession_o (f : List Byte) (s : State) : (freshSession f s).o = 0 := rfl
@[simp] theorem freshSession_phase (f : List Byte) (s : State) : (freshSession f s).phase = .admission := rfl
@[simp] theorem freshSession_kind (f : List Byte) (s : State) : (freshSession f s).kind = .decode := rfl
@[simp] theorem freshSession_requests (f : List Byte) (s : State) : (freshSession f s).requests = s.requests := rfl
@[simp] theorem freshSession_reply (f : List Byte) (s : State) : (freshSession f s).reply = .none := rfl
@[simp] theorem freshSession_grain (f : List Byte) (s : State) : (freshSession f s).grain = s.grain := rfl
@[simp] theorem freshSession_draws (f : List Byte) (s : State) : (freshSession f s).draws = s.draws + 2 := rfl

/-! ### Outcomes -/

@[simp] theorem toOut_ok (s : State) : toOut (.ok s) = .next s := rfl
@[simp] theorem toOut_error (f : Fault) : toOut (.error f) = .fault f := rfl
@[simp] theorem andThen_next (s : State) (k : State → Out) : andThen (.next s) k = k s := rfl
@[simp] theorem andThen_fault (f : Fault) (k : State → Out) : andThen (.fault f) k = .fault f := rfl
@[simp] theorem andThen_refused (r : Refusal) (k : State → Out) : andThen (.refused r) k = .refused r := rfl

theorem toOut_eq_next {e : Except Fault State} {t : State} : toOut e = .next t ↔ e = .ok t := by
  cases e <;> simp [toOut]

/-- A sequence answers a next state exactly where both parts do. -/
theorem andThen_eq_next {o : Out} {k : State → Out} {t : State} :
    andThen o k = .next t ↔ ∃ u, o = .next u ∧ k u = .next t := by
  cases o <;> simp [andThen]

@[simp] theorem except_ok_bind {α β : Type} (a : α) (k : α → Except Fault β) : (Except.ok a >>= k) = k a := rfl

/-- A sequence of operations succeeds exactly where both parts do. -/
theorem except_bind_eq_ok {α β : Type} {e : Except Fault α} {k : α → Except Fault β} {b : β} :
    (e >>= k) = .ok b ↔ ∃ a, e = .ok a ∧ k a = .ok b := by
  cases e <;> simp [bind, Except.bind]

/-! ### Accesses -/

theorem readIn_ok {s : State} {a : Nat} {b : Byte} (h : Memory.read s.inMem a = some b) :
    readIn s a = .ok b := by simp [readIn, h]

theorem readIn_eq_ok {s : State} {a : Nat} {b : Byte} :
    readIn s a = .ok b ↔ Memory.read s.inMem a = some b := by
  unfold readIn; split <;> simp_all

theorem writeOut_ok {s : State} {a : Nat} {b : Byte} (h : a < s.len) :
    writeOut a b s = .ok { s with outMem := Memory.write s.outMem a b } := by simp [writeOut, h]

theorem writeOut_eq_ok {s t : State} {a : Nat} {b : Byte} :
    writeOut a b s = .ok t ↔ a < s.len ∧ t = { s with outMem := Memory.write s.outMem a b } := by
  unfold writeOut; split <;> simp_all [eq_comm]

end Sys2Proof.Machine
end

