-- ==== Sys2Proof/Laws/Scan.lean ====
section
/-! SUPPORT. What one scan step does, and what the whole scan loop does, in terms of `SCAN` (spec/43_decode.md R153 to R155, R160). -/

namespace Sys2Proof.Machine

/-- The state after one scan step that emits `b` and consumes `n` wire bytes. -/
def stepped (b : Byte) (n : Nat) (s : State) : State :=
  { s with
    outMem := Memory.write s.outMem (scanBase s + s.o) b
    crc := if s.kind = .decode then crcUpd s.cfg s.crc b else s.crc
    o := s.o + 1
    i := s.i + n }

/-- Everything a scan step can do: the step, or a write beyond the capacity. -/
theorem symbolStep_eq (b : Byte) (n : Nat) (s : State) :
    symbolStep b n s =
      if scanBase s + s.o < s.len then .ok (stepped b n s) else .error (.outOutOfRange (scanBase s + s.o)) := by
  unfold symbolStep emit writeOut
  split
  · cases h : s.kind <;> simp [stepped, h, advance, updateCrc, pure, Except.pure]
  · rfl

theorem symbolStep_ok {s : State} (h : scanBase s + s.o < s.len) (b : Byte) (n : Nat) :
    symbolStep b n s = .ok (stepped b n s) := by rw [symbolStep_eq, if_pos h]

/-- The scan's region stands in `IN`: the frame is held and, in `DECODE`, the payload lies inside it. -/
structure RegionHeld (s : State) : Prop where
  frame : FrameHeld s
  inside : s.kind = .decode → s.payLen + 1 ≤ s.len

theorem read_inMem {s : State} (h : FrameHeld s) (a : Nat) : Memory.read s.inMem a = (frameBytes s)[a]? := by
  rw [h.1, Memory.read_ofBytes]

theorem payloadBytes_length {s : State} (h : FrameHeld s) (h' : s.payLen + 1 ≤ s.len) :
    (payloadBytes s).length = s.payLen := by
  have := h.2
  simp [payloadBytes]; omega

theorem scanRegion_length {s : State} (h : RegionHeld s) : (scanRegion s).length = scanLen s := by
  unfold scanRegion scanLen
  cases hk : s.kind with
  | decode => exact payloadBytes_length h.frame (h.inside hk)
  | full => exact h.frame.2

theorem scanBase_add_scanLen {s : State} (h : RegionHeld s) : scanBase s + scanLen s ≤ s.len := by
  unfold scanBase scanLen
  cases hk : s.kind with
  | decode => have := h.inside hk; simp; omega
  | full => simp

/-- The block reads byte `k` of the region at `IN[base + k]`. -/
theorem read_region {s : State} (h : RegionHeld s) {k : Nat} (hk : k < scanLen s) :
    Memory.read s.inMem (scanBase s + k) = (scanRegion s)[k]? := by
  rw [read_inMem h.frame]
  unfold scanBase scanRegion
  cases hkd : s.kind with
  | decode =>
    simp only [scanLen, hkd] at hk
    simp [payloadBytes, hk, Nat.add_comm]
  | full => simp

theorem readIn_region {s : State} (h : RegionHeld s) {k : Nat} {b : Byte} (hb : (scanRegion s)[k]? = some b) :
    readIn s (scanBase s + k) = .ok b := by
  have hk : k < scanLen s := by
    rw [← scanRegion_length h]; exact (List.getElem?_eq_some_iff.1 hb).1
  exact readIn_ok (by rw [read_region h hk, hb])

/-- The next bytes of the region, read through its remainder. -/
theorem remaining_eq {s : State} (h : RegionHeld s) {w : List Byte} (hw : (scanRegion s).drop s.i = w) :
    scanLen s - s.i = w.length := by
  rw [← scanRegion_length h, ← hw, List.length_drop]

theorem getElem_of_drop {l w : List Byte} {n : Nat} (h : l.drop n = w) (k : Nat) : l[n + k]? = w[k]? := by
  rw [← h, List.getElem?_drop]

/-- One scan step on a last byte: a literal (R75). -/
theorem scanStep_last {s : State} (h : RegionHeld s) {b : Byte} (hw : (scanRegion s).drop s.i = [b]) :
    scanStep s = symbolStep b 1 s := by
  have hb : readIn s (scanBase s + s.i) = .ok b := readIn_region h (by simpa using getElem_of_drop hw 0)
  have hr := remaining_eq h hw
  simp [scanStep, hb, hr]

/-- One scan step on a window that matches. -/
theorem scanStep_matched {s : State} (h : RegionHeld s) {b0 b1 : Byte} {w : List Byte}
    (hw : (scanRegion s).drop s.i = b0 :: b1 :: w) (hm : (esc b0 b1).2 = true) :
    scanStep s = symbolStep (esc b0 b1).1 2 s := by
  have h0 : readIn s (scanBase s + s.i) = .ok b0 := readIn_region h (by simpa using getElem_of_drop hw 0)
  have h1 : readIn s (scanBase s + s.i + 1) = .ok b1 := by
    rw [Nat.add_assoc]; exact readIn_region h (by simpa using getElem_of_drop hw 1)
  have hr := remaining_eq h hw
  simp [scanStep, h0, h1, hr, hm]

/-- One scan step on a window that does not match. -/
theorem scanStep_unmatched {s : State} (h : RegionHeld s) {b0 b1 : Byte} {w : List Byte}
    (hw : (scanRegion s).drop s.i = b0 :: b1 :: w) (hm : (esc b0 b1).2 = false) :
    scanStep s = symbolStep b0 1 s := by
  have h0 : readIn s (scanBase s + s.i) = .ok b0 := readIn_region h (by simpa using getElem_of_drop hw 0)
  have h1 : readIn s (scanBase s + s.i + 1) = .ok b1 := by
    rw [Nat.add_assoc]; exact readIn_region h (by simpa using getElem_of_drop hw 1)
  have hr := remaining_eq h hw
  simp [scanStep, h0, h1, hr, hm]

/-! ### The whole loop -/

/-- The state after a run of scan steps that emits `bs` and ends at read index `i`. -/
def steppedMany (bs : List Byte) (i : Nat) (s : State) : State :=
  { s with
    outMem := Memory.writeBytes s.outMem (scanBase s + s.o) bs
    crc := if s.kind = .decode then crcFrom s.cfg s.crc bs else s.crc
    o := s.o + bs.length
    i := i }

theorem steppedMany_nil (s : State) : steppedMany [] s.i s = s := by
  simp [steppedMany, Memory.writeBytes, crcFrom]

theorem steppedMany_stepped (b : Byte) (n : Nat) (bs : List Byte) (i : Nat) (s : State) :
    steppedMany bs i (stepped b n s) = steppedMany (b :: bs) i s := by
  cases hk : s.kind <;>
    simp [steppedMany, stepped, scanBase, hk, Memory.writeBytes, crcFrom, Nat.add_assoc, Nat.add_comm 1]

theorem stepped_region (b : Byte) (n : Nat) (s : State) :
    scanRegion (stepped b n s) = scanRegion s ∧ scanLen (stepped b n s) = scanLen s ∧
      scanBase (stepped b n s) = scanBase s := ⟨rfl, rfl, rfl⟩

theorem RegionHeld.stepped {s : State} (h : RegionHeld s) (b : Byte) (n : Nat) : RegionHeld (stepped b n s) :=
  ⟨h.frame, h.inside⟩

/-- The scan loop with enough fuel emits `SCAN` of what is left of the region and ends at its end (R153, R155). -/
theorem scanLoop_eq {s : State} (h : RegionHeld s) (hi : s.i ≤ scanLen s) (ho : s.o ≤ s.i) {fuel : Nat}
    (hf : scanLen s - s.i ≤ fuel) :
    scanLoop fuel s = .ok (steppedMany (scan ((scanRegion s).drop s.i)) (scanLen s) s) := by
  induction fuel generalizing s with
  | zero =>
    have hend : s.i = scanLen s := by omega
    have hnil : (scanRegion s).drop s.i = [] := List.drop_eq_nil_of_le (by rw [scanRegion_length h]; omega)
    rw [hnil, ← hend, scan_nil, steppedMany_nil]
    rfl
  | succ fuel ih =>
    unfold scanLoop
    have hbase := scanBase_add_scanLen h
    have hcase := remaining_eq h rfl
    rcases hw : (scanRegion s).drop s.i with _ | ⟨b0, _ | ⟨b1, w⟩⟩
    · have hend : s.i = scanLen s := by rw [hw] at hcase; simp at hcase; omega
      rw [if_neg (by omega), ← hend, scan_nil, steppedMany_nil]
    all_goals rw [hw] at hcase; simp only [List.length_cons, List.length_nil] at hcase
    all_goals rw [if_pos (by omega)]
    · rw [scanStep_last h hw, symbolStep_ok (by omega), except_ok_bind,
        ih (h.stepped b0 1) (show s.i + 1 ≤ scanLen s by omega) (show s.o + 1 ≤ s.i + 1 by omega)
          (show scanLen s - (s.i + 1) ≤ fuel by omega)]
      have : (scanRegion (stepped b0 1 s)).drop (stepped b0 1 s).i = [] := by
        show (scanRegion s).drop (s.i + 1) = []
        rw [← List.drop_drop, hw]; rfl
      rw [this, steppedMany_stepped]
      rfl
    · cases hm : (esc b0 b1).2 with
      | true =>
        rw [scanStep_matched h hw hm, symbolStep_ok (by omega), except_ok_bind,
          ih (h.stepped _ 2) (show s.i + 2 ≤ scanLen s by omega) (show s.o + 1 ≤ s.i + 2 by omega)
            (show scanLen s - (s.i + 2) ≤ fuel by omega)]
        have : (scanRegion (stepped (esc b0 b1).1 2 s)).drop (stepped (esc b0 b1).1 2 s).i = w := by
          show (scanRegion s).drop (s.i + 2) = w
          rw [← List.drop_drop, hw]; rfl
        rw [this, steppedMany_stepped, scan_matched hm]
        rfl
      | false =>
        rw [scanStep_unmatched h hw hm, symbolStep_ok (by omega), except_ok_bind,
          ih (h.stepped _ 1) (show s.i + 1 ≤ scanLen s by omega) (show s.o + 1 ≤ s.i + 1 by omega)
            (show scanLen s - (s.i + 1) ≤ fuel by omega)]
        have : (scanRegion (stepped b0 1 s)).drop (stepped b0 1 s).i = b1 :: w := by
          show (scanRegion s).drop (s.i + 1) = b1 :: w
          rw [← List.drop_drop, hw]; rfl
        rw [this, steppedMany_stepped, scan_unmatched hm]
        rfl

/-! ### Bounds of `SCAN` -/

/-- `SCAN` never expands, and takes at most two bytes for one (R105 item 5, R155). -/
theorem scan_length_bounds (w : List Byte) : (scan w).length ≤ w.length ∧ w.length ≤ 2 * (scan w).length := by
  induction w using scan.induct with
  | case1 => simp
  | case2 => simp
  | case3 b0 b1 w h ih => rw [scan_matched h]; simp only [List.length_cons]; omega
  | case4 b0 b1 w h ih =>
    rw [scan_unmatched (by simpa using h)]; simp only [List.length_cons] at ih ⊢; omega

end Sys2Proof.Machine
end

