-- ==== Sys2Proof/Laws/Commands.lean ====
section
/-! SUPPORT. What CSX and the two decode commands answer from a held frame (spec/42_checksum_extraction.md, spec/43_decode.md R159, spec/44_full_decode.md R185). -/

namespace Sys2Proof.Machine

/-- The checksum field read off the four bytes before the terminator (spec/30_encoding.md R72). -/
def fieldOf (a b c d : Byte) : ChecksumField :=
  if (esc c d).2 then
    if (esc a b).2 then ⟨(esc a b).1, (esc c d).1, 4⟩ else ⟨b, (esc c d).1, 3⟩
  else ⟨c, d, 2⟩

theorem fieldOf_escLen (a b c d : Byte) :
    2 ≤ (fieldOf a b c d).escLen.toNat ∧ (fieldOf a b c d).escLen.toNat ≤ 4 := by
  unfold fieldOf; split_ifs <;> simp

/-- The four bytes CSX may look at. -/
structure CsxBytes (s : State) (a b c d : Byte) : Prop where
  long : minLen ≤ s.len
  a : Memory.read s.inMem (s.len - 5) = some a
  b : Memory.read s.inMem (s.len - 4) = some b
  c : Memory.read s.inMem (s.len - 3) = some c
  d : Memory.read s.inMem (s.len - 2) = some d

theorem checksumField_eq {s : State} {a b c d : Byte} (h : CsxBytes s a b c d) :
    checksumField s = .ok (fieldOf a b c d) := by
  unfold checksumField fieldOf
  rw [readIn_ok h.c, readIn_ok h.d, readIn_ok h.a, readIn_ok h.b]
  simp only [except_ok_bind]
  split_ifs <;> rfl

/-- CSX on a frame of at least five bytes (R130 to R135). -/
theorem csx_eq {s : State} {a b c d : Byte} (h : CsxBytes s a b c d) :
    csx s = .ok (storePayLen (storeChecksum (fieldOf a b c d) s)) := by
  unfold csx
  rw [if_neg (by have := h.long; omega), checksumField_eq h]
  rfl

/-- A held frame of at least five bytes gives CSX its four bytes. -/
theorem FrameHeld.csxBytes {s : State} (h : FrameHeld s) (h5 : minLen ≤ s.len) :
    ∃ a b c d, CsxBytes s a b c d := by
  have hl : (frameBytes s).length = s.len := h.2
  unfold minLen at h5
  have hr (k : Nat) (hk : 0 < k) (hk' : k ≤ 5) :
      Memory.read s.inMem (s.len - k) = some ((frameBytes s)[s.len - k]'(by omega)) := by
    rw [read_inMem h, List.getElem?_eq_getElem]
  exact ⟨_, _, _, _, h5, hr 5 (by omega) (by omega), hr 4 (by omega) (by omega), hr 3 (by omega) (by omega),
    hr 2 (by omega) (by omega)⟩

/-- The state at the end of CSX where it does not raise. -/
def extracted (f : ChecksumField) (s : State) : State :=
  { storeChecksum f s with payLen := s.len - f.escLen.toNat - 2 }

theorem storePayLen_ok {f : ChecksumField} {s : State} (h : f.escLen.toNat + 2 ≤ s.len) :
    storePayLen (storeChecksum f s) = extracted f s := by
  unfold storePayLen
  rw [if_neg (show ¬ (storeChecksum f s).len < (storeChecksum f s).escLen.toNat + 2 from Nat.not_lt.2 h)]
  rfl

theorem storePayLen_raise {f : ChecksumField} {s : State} (h : s.len < f.escLen.toNat + 2) :
    storePayLen (storeChecksum f s) = raise (.frameTooShort s.len) (storeChecksum f s) := by
  simp [storePayLen, h]

/-! ### The scan of `DECODE` -/

/-- The state at the start of the scan of `DECODE`, with start byte `b` (R152). -/
def scanStarted (b : Byte) (s : State) : State :=
  { s with outMem := Memory.write s.outMem 0 b, i := 0, o := 0, kind := .decode }

theorem beginDecode_eq {s : State} {b : Byte} (hb : Memory.read s.inMem 0 = some b) (h : 0 < s.len) :
    beginDecode s = .ok (scanStarted b s) := by
  unfold beginDecode
  rw [readIn_ok hb, except_ok_bind, writeOut_ok h]
  rfl

/-- The state at the end of `DECODE`, from the state at the end of its scan, with terminator `e` (R156 to R158). -/
def assembled (e : Byte) (s : State) : State :=
  { s with
    outMem := Memory.writeBytes s.outMem (s.o + 1) [hiByte s.crc, loByte s.crc, e]
    outLen := s.o + 4
    valid := s.crc == s.parsed
    mode := .decoded
    status := .done
    phase := .admission }

theorem assembleDecode_eq {s : State} {e : Byte} (he : Memory.read s.inMem (s.len - 1) = some e)
    (h : s.o + 3 < s.len) : assembleDecode s = .ok (assembled e s) := by
  have h1 : 1 + s.o < s.len := by omega
  have h2 : 2 + s.o < s.len := by omega
  have h3 : 3 + s.o < s.len := by omega
  simp [assembleDecode, writeOut, readIn, he, h1, h2, h3, assembled, Memory.writeBytes, complete, setValid, pure,
    Except.pure]
  rw [Nat.add_comm 1, Nat.add_comm 2, Nat.add_comm 3]

/-- The state `DECODE` leaves from a frame with start byte `b`, checksum field `f` and terminator `e`. -/
def decodeResult (b e : Byte) (f : ChecksumField) (s : State) : State :=
  assembled e
    (steppedMany (scan (payloadBytes (extracted f s))) (extracted f s).payLen (scanStarted b (extracted f s)))

theorem frameHeld_extracted {s : State} (h : FrameHeld s) (f : ChecksumField) : FrameHeld (extracted f s) := h

/-- `DECODE` after its admission, where the payload length is not negative (R159). -/
theorem decodeRun_ok {s : State} {a b c d : Byte} (h : FrameHeld s) (hs : s.status ≠ .fault)
    (hc : CsxBytes s a b c d) (hl : (fieldOf a b c d).escLen.toNat + 2 ≤ s.len) {b0 e : Byte}
    (hb : Memory.read s.inMem 0 = some b0) (he : Memory.read s.inMem (s.len - 1) = some e) :
    decodeRun s = .ok (decodeResult b0 e (fieldOf a b c d) s) := by
  have h5 := hc.long
  unfold minLen at h5
  unfold decodeRun
  rw [csx_eq hc, except_ok_bind, storePayLen_ok hl, if_neg (by exact hs)]
  have hx : FrameHeld (extracted (fieldOf a b c d) s) := h
  have hesc := (fieldOf_escLen a b c d).1
  have hpay : (extracted (fieldOf a b c d) s).payLen + 4 ≤ s.len := by
    show s.len - (fieldOf a b c d).escLen.toNat - 2 + 4 ≤ s.len
    omega
  rw [beginDecode_eq (s := extracted (fieldOf a b c d) s) hb (show 0 < s.len by omega), except_ok_bind]
  have hreg : RegionHeld (scanStarted b0 (extracted (fieldOf a b c d) s)) :=
    ⟨hx, fun _ => show (extracted (fieldOf a b c d) s).payLen + 1 ≤ s.len by omega⟩
  rw [scanLoop_eq hreg (Nat.zero_le _) (le_refl 0) (Nat.sub_le _ _), except_ok_bind]
  have hw : (scanRegion (scanStarted b0 (extracted (fieldOf a b c d) s))).drop 0 =
      payloadBytes (extracted (fieldOf a b c d) s) := rfl
  have hlen := (scan_length_bounds (payloadBytes (extracted (fieldOf a b c d) s))).1
  rw [payloadBytes_length hx (show (extracted (fieldOf a b c d) s).payLen + 1 ≤ s.len by omega)] at hlen
  show assembleDecode (steppedMany (scan (payloadBytes (extracted (fieldOf a b c d) s)))
    (extracted (fieldOf a b c d) s).payLen (scanStarted b0 (extracted (fieldOf a b c d) s))) = _
  rw [assembleDecode_eq (by exact he)]
  · rfl
  · show 0 + (scan (payloadBytes (extracted (fieldOf a b c d) s))).length + 3 < s.len
    omega

/-- `DECODE` after its admission, where the payload length would be negative (R135). -/
theorem decodeRun_raise {s : State} {a b c d : Byte} (hc : CsxBytes s a b c d)
    (hl : s.len < (fieldOf a b c d).escLen.toNat + 2) :
    decodeRun s = .ok (raise (.frameTooShort s.len) (storeChecksum (fieldOf a b c d) s)) := by
  unfold decodeRun
  rw [csx_eq hc, except_ok_bind, storePayLen_raise hl, if_pos (raise_status _ _)]
  rfl

/-- The state `FULL_DECODE` leaves (R185). -/
def fullResult (s : State) : State := assembleFull (steppedMany (scan (frameBytes s)) s.len (beginFull s))

/-- `FULL_DECODE` after its admission (R185). -/
theorem fullRun_eq {s : State} (h : FrameHeld s) : fullRun s = .ok (fullResult s) := by
  have hreg : RegionHeld (beginFull s) := ⟨h, fun hk => by simp at hk⟩
  unfold fullRun
  show (scanLoop (scanLen (beginFull s)) (beginFull s) >>= _) = _
  rw [scanLoop_eq hreg (Nat.zero_le _) (le_refl 0) (Nat.sub_le _ _), except_ok_bind]
  rfl

end Sys2Proof.Machine
end

