-- ==== Sys2Proof/Laws/Boundary.lean ====
section
/-! SUPPORT. Symbol boundaries: how the emitted bytes grow by one symbol (spec/43_decode.md R160), and what one scan step does on a boundary. -/

namespace Sys2Proof.Machine

/-- The symbol at the front of some bytes: the byte it emits and its wire length (spec/30_encoding.md R75). -/
def frontSymbol : List Byte → Option (Byte × Nat)
  | [] => none
  | [b] => some (b, 1)
  | b0 :: b1 :: _ => if (esc b0 b1).2 then some ((esc b0 b1).1, 2) else some (b0, 1)

theorem frontSymbol_length {w : List Byte} {b : Byte} {n : Nat} (h : frontSymbol w = some (b, n)) :
    (n = 1 ∨ n = 2) ∧ n ≤ w.length := by
  rcases w with _ | ⟨b0, _ | ⟨b1, w⟩⟩
  · simp [frontSymbol] at h
  · simp [frontSymbol] at h; simp [← h.2]
  · simp only [frontSymbol] at h
    split_ifs at h <;> simp at h <;> simp [← h.2]

theorem frontSymbol_exists {w : List Byte} (h : w ≠ []) : ∃ b n, frontSymbol w = some (b, n) := by
  rcases w with _ | ⟨b0, _ | ⟨b1, w⟩⟩
  · simp at h
  · exact ⟨b0, 1, rfl⟩
  · simp only [frontSymbol]; split_ifs <;> simp

/-- `SCAN` is the front symbol's byte and `SCAN` of the rest. -/
theorem scan_front {w : List Byte} {b : Byte} {n : Nat} (h : frontSymbol w = some (b, n)) :
    scan w = b :: scan (w.drop n) := by
  rcases w with _ | ⟨b0, _ | ⟨b1, w⟩⟩
  · simp [frontSymbol] at h
  · simp [frontSymbol] at h; simp [← h.1, ← h.2]
  · simp only [frontSymbol] at h
    split_ifs at h with hm <;> simp at h <;> obtain ⟨rfl, rfl⟩ := h
    · rw [scan_matched hm]; rfl
    · rw [scan_unmatched (by simpa using hm)]; rfl

/-- `SCAN` of the front symbol alone is its byte. -/
theorem scan_take_front {w : List Byte} {b : Byte} {n : Nat} (h : frontSymbol w = some (b, n)) :
    scan (w.take n) = [b] := by
  rcases w with _ | ⟨b0, _ | ⟨b1, w⟩⟩
  · simp [frontSymbol] at h
  · simp [frontSymbol] at h; simp [← h.1, ← h.2]
  · simp only [frontSymbol] at h
    split_ifs at h with hm <;> simp at h <;> obtain ⟨rfl, rfl⟩ := h
    · simp [scan_matched hm]
    · simp

theorem scan_cons_take {c0 c1 : Byte} (h : (esc c0 c1).2 = false) (w : List Byte) (k : Nat) :
    scan (c0 :: (c1 :: w).take k) = c0 :: scan ((c1 :: w).take k) := by
  cases k with
  | zero => simp
  | succ k => exact scan_unmatched h _

/-- One more symbol after a boundary: a boundary again, and one more emitted byte. -/
theorem boundary_extend {w : List Byte} {i : Nat} {b : Byte} {n : Nat} (hb : onBoundary w i = true)
    (hf : frontSymbol (w.drop i) = some (b, n)) :
    onBoundary w (i + n) = true ∧ scan (w.take (i + n)) = scan (w.take i) ++ [b] := by
  induction w, i using onBoundary.induct with
  | case1 w =>
    rw [List.drop_zero] at hf
    rw [Nat.zero_add, scan_take_front hf]
    refine ⟨?_, by simp⟩
    rcases w with _ | ⟨b0, _ | ⟨b1, w⟩⟩
    · simp [frontSymbol] at hf
    · simp [frontSymbol] at hf; simp [← hf.2, onBoundary]
    · simp only [frontSymbol] at hf
      split_ifs at hf with hm <;> simp at hf <;> obtain ⟨rfl, rfl⟩ := hf <;> simp [onBoundary, hm]
  | case2 k => simp [onBoundary] at hb
  | case3 c k => simp [frontSymbol] at hf
  | case4 c0 c1 w hm => simp [onBoundary, hm] at hb
  | case5 c0 c1 w hm k ih =>
    have hb' : onBoundary w k = true := by simpa [onBoundary, hm] using hb
    obtain ⟨h1, h2⟩ := ih hb' (by simpa using hf)
    rw [show k + 1 + 1 + n = (k + n) + 1 + 1 by omega]
    simp only [List.take_succ_cons, scan_matched hm, h2, List.cons_append, and_true]
    simpa [onBoundary, hm] using h1
  | case6 c0 c1 w k hm ih =>
    have hm' : (esc c0 c1).2 = false := by simpa using hm
    have hb' : onBoundary (c1 :: w) k = true := by simpa [onBoundary, hm'] using hb
    obtain ⟨h1, h2⟩ := ih hb' (by simpa using hf)
    rw [show k + 1 + n = (k + n) + 1 by omega]
    simp only [List.take_succ_cons, scan_cons_take hm', h2, List.cons_append, and_true]
    simpa [onBoundary, hm'] using h1

/-- On a boundary `SCAN` splits. -/
theorem scan_split {w : List Byte} {i : Nat} (hb : onBoundary w i = true) :
    scan w = scan (w.take i) ++ scan (w.drop i) := by
  induction w, i using onBoundary.induct with
  | case1 w => simp
  | case2 k => simp [onBoundary] at hb
  | case3 c k =>
    have : k = 0 := by simpa [onBoundary] using hb
    simp [this]
  | case4 c0 c1 w hm => simp [onBoundary, hm] at hb
  | case5 c0 c1 w hm k ih =>
    have hb' : onBoundary w k = true := by simpa [onBoundary, hm] using hb
    simp [scan_matched hm, ih hb']
  | case6 c0 c1 w k hm ih =>
    have hm' : (esc c0 c1).2 = false := by simpa using hm
    have hb' : onBoundary (c1 :: w) k = true := by simpa [onBoundary, hm'] using hb
    rw [scan_unmatched hm', ih hb', List.take_succ_cons, scan_cons_take hm', List.drop_succ_cons, List.cons_append]

/-! ### One step of a scan -/

/-- What one scan step does to a held region: it emits the front symbol of what is left. -/
theorem scanStep_front {s : State} (h : RegionHeld s) {b : Byte} {n : Nat}
    (hf : frontSymbol ((scanRegion s).drop s.i) = some (b, n)) : scanStep s = symbolStep b n s := by
  rcases hw : (scanRegion s).drop s.i with _ | ⟨b0, _ | ⟨b1, w⟩⟩
  · simp [hw, frontSymbol] at hf
  · rw [scanStep_last h hw]
    simp [hw, frontSymbol] at hf
    rw [hf.1, hf.2]
  · simp only [hw, frontSymbol] at hf
    split_ifs at hf with hm <;> simp at hf <;> obtain ⟨rfl, rfl⟩ := hf
    · exact scanStep_matched h hw hm
    · exact scanStep_unmatched h hw (by simpa using hm)

end Sys2Proof.Machine
end

