-- ==== Sys2Proof/Laws/Consumer.lean ====
section
/-! SUPPORT. What the reads of the consumer can answer (spec/48_cursor_reader_consumer.md R206, R213, R220, R221, R225). -/

namespace Sys2Proof.Machine

/-- A consuming read answers the bytes at the cursor and moves past them, exactly where they are in the view. -/
theorem readArray_eq (n : Nat) (r : Reader) :
    r.readArray n =
      if r.cur + n ≤ r.view.length then .ok ((r.view.drop r.cur).take n, { r with cur := r.cur + n })
      else .error .outOfBounds := by
  unfold Reader.readArray Reader.peek
  split <;> rfl

/-- A peek gives what the consuming read gives (R220). -/
theorem peekWord_of_readWord {n : Nat} {r r' : Reader} {v : BitVec (8 * n)} (h : r.readWord n = .ok (v, r')) :
    r.peekWord n = .ok v := by
  unfold Reader.readWord Reader.readArray at h
  unfold Reader.peekWord
  cases hp : r.peek n <;> simp_all [Except.map]

/-- The remaining length is the number of bytes `read_content(0)` gives (R221). -/
theorem readContent_remaining {r : Reader} {n : Nat} (h : r.remaining = .ok n) :
    r.readContent 0 = .ok ((r.view.drop r.cur).take n, { r with cur := r.cur + n }) ∧
      ((r.view.drop r.cur).take n).length = n := by
  have hb : r.cur + n ≤ r.view.length := by
    unfold Reader.remaining at h
    split at h <;> simp_all; omega
  constructor
  · simp [Reader.readContent, h, Except.bind, readArray_eq, hb]
  · simp; omega

/-- Whatever reader is held, it shows the session's view as it is now (R206, R38). -/
theorem follow_eq (moved : Nat → Nat) (before after : State) (r : Reader) :
    r.follow moved before after =
      (viewOf after).map fun v =>
        ⟨v.bytes, if viewStands before after then r.cur else moved r.cur, v.mode, shownCrc after, shownParsed after,
          (shownValid after).msb⟩ := rfl

/-- A reader held while nothing happens stays as it is. -/
theorem follow_self {moved : Nat → Nat} {s : State} {r : Reader} (h : readerAt r.cur s = some r) :
    r.follow moved s s = some r := by
  simp [Reader.follow, viewStands, h]

/-- A decimal digit pair is below 100. -/
theorem twoDigits_lt {b : Byte} {n : Nat} (h : twoDigits b = some n) : n < 100 := by
  unfold twoDigits at h
  split at h <;> simp_all; omega

/-- A date read answers a date of the calendar, or the fixed epoch (R215). -/
theorem orFallback_cases (p : DateParams) (t : DateTime) :
    t.inRange p.lastYear = true ∧ orFallback p t = t ∨ orFallback p t = p.fallback := by
  unfold orFallback
  split <;> simp_all

end Sys2Proof.Machine
end

