-- ==== Sys2Proof/Laws/Step.lean ====
section
/-! SUPPORT. What a step does in each phase (spec/43_decode.md R160), and what the host's operations do to the whole state. -/

namespace Sys2Proof.Machine

/-- A symbol of the wire runs as the scan step of its byte and length. -/
theorem exec_symbolOf (b0 : Byte) (rest : List Byte) (s : State) :
    ∃ b n, frontSymbol (b0 :: rest) = some (b, n) ∧
      exec (decodeFront .wire b0 rest).1 s = toOut (symbolStep b n s) := by
  rcases rest with _ | ⟨b1, w⟩
  · exact ⟨b0, 1, rfl, rfl⟩
  · cases hm : (esc b0 b1).2 with
    | true =>
      refine ⟨(esc b0 b1).1, 2, by simp [frontSymbol, hm], ?_⟩
      rcases esc_matched_cases hm with ⟨rfl, rfl, h⟩ | ⟨rfl, rfl, h⟩ | ⟨rfl, rfl, h⟩ | ⟨rfl, rfl, h⟩ <;>
        rw [h] <;> rfl
    | false =>
      refine ⟨b0, 1, by simp [frontSymbol, hm], ?_⟩
      have : (decodeFront .wire b0 (b1 :: w)).1 = .lit1 b0 := by
        simp [decodeFront, symbolOf, escSymbol_of_unmatched hm]
      rw [this]
      rfl

/-- A window decides the symbol, whatever follows it. -/
theorem frontSymbol_window (b0 b1 : Byte) (w : List Byte) : frontSymbol (b0 :: b1 :: w) = frontSymbol [b0, b1] := rfl

/-- The symbol fetched at the read index of a held region runs as the scan step: the decoder and the Escape Table agree. -/
theorem exec_fetchSymbol {s : State} (h : RegionHeld s) (hi : s.i < scanLen s) :
    ∃ i, fetchSymbol s = .ok i ∧ exec i s = toOut (scanStep s) := by
  have hr := remaining_eq h rfl
  have hne : (scanRegion s).drop s.i ≠ [] := by
    intro h0; rw [h0] at hr; simp at hr; omega
  obtain ⟨b, n, hf⟩ := frontSymbol_exists hne
  rw [scanStep_front h hf]
  rcases hw : (scanRegion s).drop s.i with _ | ⟨b0, _ | ⟨b1, w⟩⟩
  · exact absurd hw hne
  · have h0 : readIn s (scanBase s + s.i) = .ok b0 := readIn_region h (by simpa using getElem_of_drop hw 0)
    rw [hw] at hr
    obtain ⟨b', n', hf', he⟩ := exec_symbolOf b0 [] s
    rw [hw] at hf
    rw [hf] at hf'
    obtain ⟨rfl, rfl⟩ : b = b' ∧ n = n' := by simpa using hf'
    refine ⟨_, ?_, he⟩
    simp [fetchSymbol, fetchBytes, h0, hr, pure, Except.pure]
  · have h0 : readIn s (scanBase s + s.i) = .ok b0 := readIn_region h (by simpa using getElem_of_drop hw 0)
    have h1 : readIn s (scanBase s + s.i + 1) = .ok b1 := by
      rw [Nat.add_assoc]; exact readIn_region h (by simpa using getElem_of_drop hw 1)
    rw [hw] at hr
    obtain ⟨b', n', hf', he⟩ := exec_symbolOf b0 [b1] s
    rw [hw, frontSymbol_window] at hf
    rw [hf] at hf'
    obtain ⟨rfl, rfl⟩ : b = b' ∧ n = n' := by simpa using hf'
    refine ⟨_, ?_, he⟩
    simp [fetchSymbol, fetchBytes, h0, h1, hr, pure, Except.pure]

/-! ### A step, by phase -/

theorem step_idle {s : State} (hp : s.phase = .admission) (hr : s.requests = []) : step s = .next s := by
  simp [step, hp, hr]

/-- With no command in progress the step is the next request's instruction. -/
theorem step_request {s : State} {r : Request} {rest : List Request} (hp : s.phase = .admission)
    (hr : s.requests = r :: rest) {i : Instr} (hi : requestInstr r = .ok i) :
    step s = exec i { s with requests := rest } := by
  simp [step, hp, hr, hi]

theorem step_csx {s : State} (hp : s.phase = .csx) : step s = andThen (exec .csx s) afterCsx := by
  simp [step, hp]

/-- In `P_SCAN` with a byte left, the step is one scan step and the choice of the next phase. -/
theorem step_scan {s : State} (hp : s.phase = .scan) (h : RegionHeld s) (hi : s.i < scanLen s) :
    step s = andThen (toOut (scanStep s)) afterSymbol := by
  obtain ⟨i, hf, he⟩ := exec_fetchSymbol h hi
  simp [step, hp, hi, hf, he]

theorem step_scan_over {s : State} (hp : s.phase = .scan) (hi : ¬ s.i < scanLen s) :
    step s = .next { s with phase := .asm } := by
  simp [step, hp, hi, scanOver]

theorem step_asm {s : State} (hp : s.phase = .asm) : step s = toOut (assemble s) := by
  simp [step, hp, stepAsm]

/-- In `P_SCAN` with a byte left: the symbol at the front is emitted. -/
theorem step_scan_symbol {s : State} (hp : s.phase = .scan) (h : RegionHeld s) (hi : s.i < scanLen s)
    (ho : s.o ≤ s.i) :
    ∃ b n, frontSymbol ((scanRegion s).drop s.i) = some (b, n) ∧ s.i + n ≤ scanLen s ∧
      step s = .next { stepped b n s with phase := if s.i + n < scanLen s then .scan else .asm } := by
  have hr := remaining_eq h rfl
  have hne : (scanRegion s).drop s.i ≠ [] := by
    intro h0; rw [h0] at hr; simp at hr; omega
  obtain ⟨b, n, hf⟩ := frontSymbol_exists hne
  have hn := frontSymbol_length hf
  have hbase := scanBase_add_scanLen h
  refine ⟨b, n, hf, by omega, ?_⟩
  rw [step_scan hp h hi, scanStep_front h hf, symbolStep_ok (by omega)]
  rfl

/-! ### Whole commands -/

/-- What `DECODE` answers in `FRESH` on a frame of at least five bytes, as one transition. -/
theorem execDecode_fresh {s : State} (hs : s.status = .fresh) (h5 : minLen ≤ s.len) (hg : s.grain = .atomic) :
    execDecode s = toOut (decodeRun s) := by
  simp [execDecode, unlessFault, hs, hg, Nat.not_lt.2 h5]

theorem execFullDecode_fresh {s : State} (hs : s.status = .fresh) (hg : s.grain = .atomic) :
    execFullDecode s = toOut (fullRun s) := by
  simp [execFullDecode, unlessFault, hs, hg]

/-- `DECODE` on a frame shorter than five bytes (R151, R242). -/
theorem execDecode_short {s : State} (hs : s.status = .fresh) (h5 : s.len < minLen) :
    execDecode s = .next (raise (.frameTooShort s.len) s) := by
  simp [execDecode, unlessFault, hs, h5]

/-- In `FAULT` every command is ignored (R246). -/
theorem unlessFault_fault {s : State} (h : s.status = .fault) (body : State → Out) : unlessFault s body = .next s := by
  simp [unlessFault, h]

end Sys2Proof.Machine
end

