-- ==== Sys2Proof/Laws/Outcomes.lean ====
section
/-! SUPPORT. What each operation can answer, said once: fault entry, CSX, a symbol, the two decode commands, the host's requests, and a step while a command is in progress. -/

namespace Sys2Proof.Machine

/-! ### Fault entry and frames -/

/-- Fault entry outside `FAULT`, as one update (spec/60_exceptions.md R245). -/
theorem raise_eq (f : Trap) (s : State) (hs : s.status ≠ .fault) :
    raise f s =
      { s with status := .fault, faultCode := trapCode f, phase := .admission, draws := s.draws + 1 } := by
  simp [raise, hs]

/-- A loaded frame is held, and is the frame. -/
theorem loaded_held {f : List Byte} {s : State} (h : Loaded f s) : frameBytes s = f ∧ FrameHeld s := by
  have : frameBytes s = f := by simp [frameBytes, h.1]
  exact ⟨this, by rw [FrameHeld, this]; exact ⟨h.1, h.2.symm⟩⟩

/-- The byte of a loaded frame at an index. -/
theorem read_loaded {f : List Byte} {s : State} (h : Loaded f s) (k : Nat) : Memory.read s.inMem k = f[k]? := by
  rw [h.1]; simp

/-- The first and the last byte of a held frame. -/
theorem held_ends {s : State} (h : FrameHeld s) (h5 : 1 ≤ s.len) :
    ∃ b0 e, Memory.read s.inMem 0 = some b0 ∧ Memory.read s.inMem (s.len - 1) = some e ∧
      (frameBytes s).take 1 = [b0] ∧ (frameBytes s).drop (s.len - 1) = [e] := by
  have := h.2
  refine ⟨(frameBytes s)[0], (frameBytes s)[s.len-1], ?_, ?_, ?_, ?_⟩
  · rw [read_inMem h, List.getElem?_eq_getElem]
  · rw [read_inMem h, List.getElem?_eq_getElem]
  · rw [List.take_one, List.head?_eq_getElem?, List.getElem?_eq_getElem (by omega)]; rfl
  · rw [List.drop_eq_getElem_cons (by omega), List.drop_eq_nil_of_le (by omega)]

/-! ### Symbols and CSX -/

/-- A symbol is the scan step of its byte and length (spec/43_decode.md R154). -/
theorem exec_symbol {i : Instr} {d : Byte} (s : State) (h : symbolByte i = some d) :
    exec i s = toOut (symbolStep d (symbolLength i) s) := by
  cases i <;> simp [symbolByte] at h <;> subst h <;> rfl

/-- What a scan step can answer. -/
theorem symbolStep_next {b n} {s t : State} (h : toOut (symbolStep b n s) = .next t) :
    scanBase s + s.o < s.len ∧ t = stepped b n s := by
  rw [symbolStep_eq] at h
  split at h <;> simp [toOut] at h
  exact ⟨by assumption, h.symm⟩

/-- What is fetched runs as some scan step. -/
theorem exec_fetched {s : State} {i : Instr} (h : fetchSymbol s = .ok i) :
    ∃ b n, exec i s = toOut (symbolStep b n s) := by
  unfold fetchSymbol at h
  rw [except_bind_eq_ok] at h
  obtain ⟨⟨b, rest⟩, h1, h2⟩ := h
  simp [pure, Except.pure] at h2
  subst h2
  obtain ⟨b', n, -, he⟩ := exec_symbolOf b rest s
  exact ⟨b', n, he⟩

/-- What CSX can answer, and what it has read (spec/42_checksum_extraction.md R130 to R135). -/
theorem exec_csx_next {s t : State} (h : exec .csx s = .next t) : ∃ a b c d,  5 ≤ s.len ∧ 
   Memory.read s.inMem (s.len - 3) = some c ∧ Memory.read s.inMem (s.len - 2) = some d ∧
   ((esc c d).2 = true → Memory.read s.inMem (s.len - 5) = some a ∧ Memory.read s.inMem (s.len - 4) = some b) ∧
   t = storePayLen (storeChecksum (fieldOf a b c d) s) := by
  have h : toOut (csx s) = .next t := h
  unfold csx at h
  split at h
  · simp [toOut] at h
  rename_i h5
  unfold checksumField at h
  rcases hc : readIn s (s.len - 3) with _ | c
  · rw [hc] at h; simp [toOut, bind, Except.bind] at h
  rcases hd : readIn s (s.len - 2) with _ | d
  · rw [hc, hd] at h; simp [toOut, bind, Except.bind] at h
  rw [hc, hd] at h
  simp only [except_ok_bind] at h
  split at h
  · rename_i hm
    rcases ha : readIn s (s.len - 5) with _ | a
    · rw [ha] at h; simp [toOut, bind, Except.bind] at h
    rcases hb : readIn s (s.len - 4) with _ | b
    · rw [ha, hb] at h; simp [toOut, bind, Except.bind] at h
    rw [ha, hb] at h
    simp only [except_ok_bind] at h
    refine ⟨a, b, c, d, by simpa [minLen] using h5, readIn_eq_ok.1 hc, readIn_eq_ok.1 hd,
      fun _ => ⟨readIn_eq_ok.1 ha, readIn_eq_ok.1 hb⟩, ?_⟩
    split at h <;> simp_all [pure, Except.pure, toOut, fieldOf, bind, Except.bind]
  · rename_i hm
    refine ⟨c, c, c, d, by simpa [minLen] using h5, readIn_eq_ok.1 hc, readIn_eq_ok.1 hd,
      fun hh => absurd hh hm, ?_⟩
    simp_all [pure, Except.pure, toOut, fieldOf, bind, Except.bind]

/-! ### The two decode commands -/

/-- `DECODE`'s result from the seed, field by field (spec/43_decode.md R159). -/
theorem decodeResult_eq (b e : Byte) (f : ChecksumField) (s : State) (hc : s.crc = crcInit) (p : List Byte)
    (hp : scan (payloadBytes (extracted f s)) = p) :
    decodeResult b e f s = { s with
      outMem := Memory.writeBytes s.outMem 0 (b :: p ++ [hiByte (crcRun s.cfg p), loByte (crcRun s.cfg p), e])
      outLen := p.length + 4
      crc := crcRun s.cfg p
      parsed := joinBytes f.hi f.lo
      valid := crcRun s.cfg p == joinBytes f.hi f.lo
      mode := .decoded
      status := .done
      escLen := f.escLen
      payLen := s.len - f.escLen.toNat - 2
      hi := f.hi
      lo := f.lo
      i := s.len - f.escLen.toNat - 2
      o := p.length
      phase := .admission
      kind := .decode } := by
  unfold decodeResult
  rw [hp]
  simp [assembled, steppedMany, scanStarted, extracted, storeChecksum, scanBase, hc, crcRun, Memory.writeBytes,
    Memory.writeBytes_append, Nat.add_comm 1]

/-- `FULL_DECODE`'s result, field by field (spec/44_full_decode.md R185). -/
theorem fullResult_eq (s : State) : fullResult s = { s with
      outMem := Memory.writeBytes s.outMem 0 (scan (frameBytes s))
      outLen := (scan (frameBytes s)).length
      mode := s.cfg.modeAfterFull
      status := .done
      i := s.len
      o := (scan (frameBytes s)).length
      phase := .admission
      kind := .full } := by
  simp [fullResult, assembleFull, complete, steppedMany, beginFull, scanBase]

/-- `DECODE` where nothing faults. -/
theorem exec_decode_ok {s : State} {a b c d b0 e : Byte} (hs : s.status = .fresh) (hg : s.grain = .atomic)
    (h : FrameHeld s)
    (hc : CsxBytes s a b c d) (hl : (fieldOf a b c d).escLen.toNat + 2 ≤ s.len)
   (hb : Memory.read s.inMem 0 = some b0) (he : Memory.read s.inMem (s.len - 1) = some e) :
   exec .decode s = .next (decodeResult b0 e (fieldOf a b c d) s) := by
  show execDecode s = _
  rw [execDecode_fresh hs hc.long hg, decodeRun_ok h (by rw [hs]; decide) hc hl hb he]; rfl

/-- `FULL_DECODE` in `FRESH`. -/
theorem exec_fullDecode_ok {s : State} (h : FrameHeld s) (hs : s.status = .fresh) (hg : s.grain = .atomic) :
    exec .fullDecode s = .next (fullResult s) := by
  show execFullDecode s = _
  rw [execFullDecode_fresh hs hg, fullRun_eq h]; rfl

/-- Everything `DECODE` can do in `FRESH` as one transition. -/
theorem exec_decode_cases {s t : State} (h : FrameHeld s) (hg : s.grain = .atomic) (hs : s.status = .fresh)
    (he : exec .decode s = .next t) :
   (s.len < 5 ∧ t = raise (.frameTooShort s.len) s) ∨
   ∃ a b c d, CsxBytes s a b c d ∧
    ((s.len < (fieldOf a b c d).escLen.toNat + 2 ∧
        t = raise (.frameTooShort s.len) (storeChecksum (fieldOf a b c d) s)) ∨
     ((fieldOf a b c d).escLen.toNat + 2 ≤ s.len ∧
        ∃ b0 e, Memory.read s.inMem 0 = some b0 ∧ Memory.read s.inMem (s.len - 1) = some e ∧
          t = decodeResult b0 e (fieldOf a b c d) s)) := by
  have he : execDecode s = .next t := he
  by_cases h5 : s.len < 5
  · rw [execDecode_short hs h5] at he
    exact .inl ⟨h5, by simpa using he.symm⟩
  · right
    obtain ⟨a, b, c, d, hx⟩ := h.csxBytes (by unfold minLen; omega)
    refine ⟨a, b, c, d, hx, ?_⟩
    rw [execDecode_fresh hs hx.long hg] at he
    by_cases hl : (fieldOf a b c d).escLen.toNat + 2 ≤ s.len
    · obtain ⟨b0, e, hb, hee, -⟩ := held_ends h (by omega)
      rw [decodeRun_ok h (by rw [hs]; decide) hx hl hb hee] at he
      exact .inr ⟨hl, b0, e, hb, hee, by simpa [toOut] using he.symm⟩
    · rw [decodeRun_raise hx (by omega)] at he
      exact .inl ⟨by omega, by simpa [toOut] using he.symm⟩

/-! ### Requests -/

/-- An encode lookup only answers. -/
theorem exec_encode_next (b : Byte) (s t : State) (h : exec (encodeLookupOf b) s = .next t) :
    ∃ r, t = answer r s := by
  have : ∃ c, exec (encodeLookupOf b) s = encodeLookup c s := by
    unfold encodeLookupOf; split_ifs <;>
      simp only [exec, execEnc5A, execEnc5B, execEnc5D, execEnc5E, execEncNone] <;> exact ⟨_, rfl⟩
  obtain ⟨c, hc⟩ := this
  rw [hc] at h
  unfold encodeLookup at h
  split at h <;> simp at h <;> exact ⟨_, h.symm⟩

/-- A read-out only answers. -/
theorem exec_readOut_next (sel : ReadSel) (s t : State) (h : exec (.readOut sel) s = .next t) :
    ∃ r, t = answer r s := by
  simp only [exec, execReadOut] at h
  split at h <;> simp at h
  exact ⟨_, h.symm⟩

/-- Everything a step can do where no command is in progress. -/
theorem step_admit_next {s t : State} (hp : s.phase = .admission) (h : step s = .next t) :
   (s.requests = [] ∧ t = s) ∨
    ∃ r rest i, s.requests = r :: rest ∧ requestInstr r = .ok i ∧
      exec i { s with requests := rest } = .next t ∧
     ((∃ f, i = .load f ∧ r = .load f) ∨ (∃ sel, i = .readOut sel) ∨ (∃ b, i = encodeLookupOf b) ∨
        i ∈ [Instr.nop, .decode, .fullDecode, .reservedCmd]) := by
  cases hr : s.requests with
  | nil => rw [step_idle hp hr] at h; simp at h; exact .inl ⟨rfl, h.symm⟩
  | cons r rest =>
    right
    cases hi : requestInstr r with
    | error e => simp [step, hp, hr, hi] at h
    | ok i =>
      refine ⟨r, rest, i, rfl, hi, by rw [← step_request hp hr hi]; exact h, ?_⟩
      cases r with
      | load f => simp [requestInstr] at hi; exact .inl ⟨f, hi.symm, rfl⟩
      | read sel => simp [requestInstr] at hi; exact .inr (.inl ⟨sel, hi.symm⟩)
      | encode b => simp [requestInstr, decodeFront] at hi; exact .inr (.inr (.inl ⟨b, hi.symm⟩))
      | write n v =>
        cases n with
        | zero =>
          simp [requestInstr, decodeFront] at hi
          right; right; right
          rw [← hi]; unfold commandOf; split_ifs <;> simp
        | succ n => simp [requestInstr] at hi; split_ifs at hi

/-! ### A command in progress -/

/-- Everything a step can do while a command is in progress, in any state. -/
theorem step_busy_next {s t : State} (hp : s.phase ≠ .admission) (h : step s = .next t) :
   (s.phase = .csx ∧ ∃ a b c d, (t = raise (.frameTooShort s.len) (storeChecksum (fieldOf a b c d) s)) ∨ 
      (∃ b0, t = { scanStarted b0 (extracted (fieldOf a b c d) s) with phase := .scan }) ∨
      (s.status = .fault ∧ t = extracted (fieldOf a b c d) s)) ∨
   (s.phase = .scan ∧ ∃ b n, t = { stepped b n s with phase := if s.i + n < scanLen s then .scan else .asm }) ∨
   (s.phase = .scan ∧ t = { s with phase := .asm }) ∨
   (s.phase = .asm ∧ s.kind = .decode ∧ ∃ e, t = assembled e s) ∨
   (s.phase = .asm ∧ s.kind = .full ∧ t = assembleFull s) := by
  cases hph : s.phase with
  | admission => exact absurd hph hp
  | csx =>
    left
    refine ⟨rfl, ?_⟩
    rw [step_csx hph, andThen_eq_next] at h
    obtain ⟨u, hu, h⟩ := h
    obtain ⟨a, b, c, d, h5, hc, hd, hab, rfl⟩ := exec_csx_next hu
    refine ⟨a, b, c, d, ?_⟩
    have hesc := fieldOf_escLen a b c d
    by_cases hl : (fieldOf a b c d).escLen.toNat + 2 ≤ s.len
    · rw [storePayLen_ok hl] at h
      unfold afterCsx at h
      split at h
      · rename_i hf; simp at h; exact .inr (.inr ⟨hf, h.symm⟩)
      · right; left
        rw [andThen_eq_next] at h
        obtain ⟨v, hv, h⟩ := h
        simp at h; subst h
        cases hb0 : Memory.read s.inMem 0 with
        | none =>
          have : beginDecode (extracted (fieldOf a b c d) s) = .error (.inOutOfRange 0) := by
            simp [beginDecode, readIn, extracted, hb0, bind, Except.bind, storeChecksum]
          rw [this] at hv; simp [toOut] at hv
        | some b0 =>
          rw [beginDecode_eq (s := extracted (fieldOf a b c d) s) hb0 (show 0 < s.len by omega)] at hv
          simp [toOut] at hv
          exact ⟨b0, by rw [hv]⟩
    · rw [storePayLen_raise (by omega)] at h
      simp [afterCsx] at h
      exact .inl h.symm
  | scan =>
    right
    by_cases hi : s.i < scanLen s
    · left
      simp [step, hph, hi] at h
      split at h
      · rename_i i hf
        obtain ⟨b, n, he⟩ := exec_fetched hf
        rw [he, andThen_eq_next] at h
        obtain ⟨u, hu, h⟩ := h
        obtain ⟨-, rfl⟩ := symbolStep_next hu
        simp [afterSymbol] at h
        exact ⟨rfl, b, n, h.symm⟩
      · simp at h
    · right; left
      rw [step_scan_over hph hi] at h
      simp at h
      exact ⟨rfl, h.symm⟩
  | asm =>
    right; right; right
    rw [step_asm hph] at h
    unfold assemble at h
    cases hk : s.kind with
    | full => right; rw [hk] at h; simp [toOut] at h; exact ⟨rfl, rfl, h.symm⟩
    | decode =>
      left
      refine ⟨rfl, rfl, ?_⟩
      rw [hk] at h
      have h : assembleDecode s = .ok t := by
        cases hx : assembleDecode s with
        | ok u => rw [hx] at h; simp [toOut] at h; rw [h]
        | error f => rw [hx] at h; simp [toOut] at h
      have h0 := h
      unfold assembleDecode at h
      rw [except_bind_eq_ok] at h
      obtain ⟨s1, h1, h⟩ := h
      rw [except_bind_eq_ok] at h
      obtain ⟨s2, h2, h⟩ := h
      rw [except_bind_eq_ok] at h
      obtain ⟨e, he, h⟩ := h
      rw [except_bind_eq_ok] at h
      obtain ⟨s3, h3, h⟩ := h
      rw [writeOut_eq_ok] at h1 h2 h3
      obtain ⟨l1, rfl⟩ := h1
      obtain ⟨l2, rfl⟩ := h2
      obtain ⟨l3, rfl⟩ := h3
      rw [readIn_eq_ok] at he
      rw [assembleDecode_eq (s := s) he (by simp at l3; omega)] at h0
      exact ⟨e, by simpa using h0.symm⟩

/-! ### Stuffed strings -/

/-- The last wire byte of one byte is no lead byte (spec/42_checksum_extraction.md R139 item 2). -/
theorem stuffByte_last (b : Byte) : ∃ w c, stuffByte b = w ++ [c] ∧ c ≠ 0x5A ∧ c ≠ 0x5E := by
  unfold stuffByte
  split
  next b0 b1 h =>
    refine ⟨[b0], b1, rfl, ?_⟩
    unfold escEnc at h; split_ifs at h <;> simp at h <;> (obtain ⟨-, rfl⟩ := h; decide)
  next h => exact ⟨[], b, rfl, escEnc_none_not_lead h⟩

/-- The last wire byte of a stuffed payload after a start byte is no lead byte. -/
theorem stuff_last (p : List Byte) (start : Byte) (hs : start ≠ 0x5A ∧ start ≠ 0x5E) :
    (start :: stuff p).getLast (List.cons_ne_nil _ _) ≠ 0x5A ∧
      (start :: stuff p).getLast (List.cons_ne_nil _ _) ≠ 0x5E := by
  rcases List.eq_nil_or_concat p with rfl | ⟨q, b, rfl⟩
  · exact hs
  · obtain ⟨w, c, hw, hc⟩ := stuffByte_last b
    have : start :: stuff (q.concat b) = (start :: stuff q ++ w) ++ [c] := by simp [stuff, hw]
    simp only [this, List.getLast_append_singleton]
    exact hc

/-- The escapable bytes are those with an escape sequence (spec/40_escape_table.md R104). -/
theorem escEnc_isSome (b : Byte) : (escEnc b).isSome = isEscapable b := by
  revert b; decide

end Sys2Proof.Machine
end

