-- ==== Sys2Proof/Laws/PerInstr.lean ====
section
/-! SUPPORT. Statements made for every instruction, one lemma per constructor. `EncodedLength`: an instruction's encoding takes the bytes its row's format gives it (spec/30_encoding.md R73, R74, R80, R83): one byte for the formats `CMD`, `LIT1` and `ENC1`, two for `ESC2`, none for the four rows without a pattern. -/

namespace Sys2Proof.Laws.EncodedLength

open Sys2Proof

/-- The context and the length of an instruction's encoding. -/
def shape : Instr → Option (Context × Nat)
  | .nop | .decode | .fullDecode | .reservedCmd => some (.command, 1)
  | .esc5B | .esc5A | .esc5D | .esc5E => some (.wire, 2)
  | .lit1 _ => some (.wire, 1)
  | .enc5B | .enc5A | .enc5D | .enc5E | .encNone _ => some (.encodeLookup, 1)
  | .load _ | .crcUpd _ | .csx | .readOut _ => none

/-- The encoding has the shape of the instruction's row. -/
def Statement (i : Instr) : Prop := (encode i).map (fun e => (e.1, e.2.length)) = shape i

theorem nop : Statement .nop := rfl
theorem decode : Statement .decode := rfl
theorem fullDecode : Statement .fullDecode := rfl
theorem reservedCmd : Statement .reservedCmd := rfl
theorem esc5B : Statement .esc5B := rfl
theorem esc5A : Statement .esc5A := rfl
theorem esc5D : Statement .esc5D := rfl
theorem esc5E : Statement .esc5E := rfl
theorem lit1 (b : Byte) : Statement (.lit1 b) := rfl
theorem enc5B : Statement .enc5B := rfl
theorem enc5A : Statement .enc5A := rfl
theorem enc5D : Statement .enc5D := rfl
theorem enc5E : Statement .enc5E := rfl
theorem encNone (b : Byte) : Statement (.encNone b) := rfl
theorem load (f : List Byte) : Statement (.load f) := rfl
theorem crcUpd (b : Byte) : Statement (.crcUpd b) := rfl
theorem csx : Statement .csx := rfl
theorem readOut (sel : ReadSel) : Statement (.readOut sel) := rfl

end Sys2Proof.Laws.EncodedLength
end

