-- ==== Sys2Proof/Tests/Slice0.lean ====
section
/-! SUPPORT. The model's own tests: what WellFormed refuses, words written out bit by bit from the spec's encodings, single steps on the spec's vectors (spec/95_test_vectors.md), and for every statement with hypotheses a state and operands that meet them. -/

namespace Sys2Proof.Tests

open Sys2Proof Sys2Proof.Machine

/-! ### Helpers -/

/-- A session right after `LOAD(f)`, every register at a plain value. -/
def session (f : List Byte) : State where
  cfg := defaultConfig
  inMem := Memory.ofBytes f
  len := f.length
  outMem := []
  outLen := 0
  crc := crcInit
  parsed := 0
  valid := false
  mode := .raw
  status := .fresh
  faultCode := 0
  escLen := 0
  payLen := 0
  hi := 0
  lo := 0
  i := 0
  o := 0
  phase := .admission
  kind := .decode
  requests := []
  reply := .none
  grain := .atomic
  draws := 1

/-- The same, in the scan of `DECODE`: the payload has `n` bytes and nothing is consumed. -/
def scanning (f : List Byte) (n : Nat) : State :=
  { session f with status := .busy, phase := .scan, grain := .stepwise, payLen := n, escLen := 2,
                   outMem := Memory.ofBytes (f.take 1) }

/-- The same, in the scan of `FULL_DECODE`. -/
def scanningFull (f : List Byte) : State :=
  { session f with status := .busy, phase := .scan, grain := .stepwise, kind := .full }

/-- The configuration with `MAX_LEN = 16` (V-SES-22). -/
def capped : Config := { defaultConfig with maxLen := some ⟨16, by decide⟩ }

/-- The session with the capacity of 16 bytes. -/
def cappedSession (f : List Byte) : State := { session f with cfg := capped }

/-- A next state with a property that can be evaluated. -/
def nextWith (o : Out) (p : State → Bool) : Bool :=
  match o with
  | .next t => p t
  | _ => false

/-- The bytes of the view of a completed command. -/
def outBytes (s : State) : Option (List Byte) := Memory.readBytes s.outMem 0 s.outLen

/-! ### WellFormed refuses -/

theorem test_encNone_of_an_escapable_byte_is_ill_formed :
    Instr.wellFormed (.encNone 0x5A) = false ∧ Instr.wellFormed (.encNone 0x5B) = false ∧
    Instr.wellFormed (.encNone 0x5D) = false ∧ Instr.wellFormed (.encNone 0x5E) = false ∧
    Instr.wellFormed (.encNone 0x5C) = true := by decide

theorem test_read_of_a_register_that_cannot_be_read_is_ill_formed :
    Instr.wellFormed (.readOut (.reg 0)) = false ∧ Instr.wellFormed (.readOut (.reg 6)) = false ∧
    Instr.wellFormed (.readOut (.reg 1)) = true ∧ Instr.wellFormed (.readOut (.reg 5)) = true := by decide

/-! ### Words written out from the encodings (spec/30_encoding.md R74, R75, R80; spec/40_escape_table.md R104) -/

theorem test_decode_commands :
    decode .command [0b00000000] = .ok (.nop, []) ∧ decode .command [0b00000001] = .ok (.decode, []) ∧
    decode .command [0b00000010] = .ok (.fullDecode, []) ∧
    decode .command [0b00000011] = .ok (.reservedCmd, []) := by decide

/-- V-SES-24: bits above bit 1 are ignored. -/
theorem test_decode_command_ignores_high_bits : decode .command [0b00000101] = .ok (.decode, []) := by decide

theorem test_decode_escapes :
    decode .wire [0b01011010, 0b00000001, 0x77] = .ok (.esc5B, [0x77]) ∧
    decode .wire [0b01011010, 0b00000010, 0x77] = .ok (.esc5A, [0x77]) ∧
    decode .wire [0b01011110, 0b00000001, 0x77] = .ok (.esc5D, [0x77]) ∧
    decode .wire [0b01011110, 0b00000010, 0x77] = .ok (.esc5E, [0x77]) := by decide

/-- V-ESC-6, V-ESC-12, V-SCN-1: a wrong second byte, the wrong order, a lone lead byte. -/
theorem test_decode_literals :
    decode .wire [0b01011010, 0b00000011] = .ok (.lit1 0x5A, [0x03]) ∧
    decode .wire [0b00000001, 0b01011010] = .ok (.lit1 0x01, [0x5A]) ∧
    decode .wire [0b01011010] = .ok (.lit1 0x5A, []) := by decide

theorem test_decode_encode_lookups :
    decode .encodeLookup [0b01011011] = .ok (.enc5B, []) ∧ decode .encodeLookup [0b01011010] = .ok (.enc5A, []) ∧
    decode .encodeLookup [0b01011101] = .ok (.enc5D, []) ∧ decode .encodeLookup [0b01011110] = .ok (.enc5E, []) ∧
    decode .encodeLookup [0b01011100] = .ok (.encNone 0x5C, []) := by decide

theorem test_decode_of_nothing_is_refused :
    decode .command [] = .error (.noBits .command) ∧ decode .wire [] = .error (.noBits .wire) ∧
    decode .encodeLookup [] = .error (.noBits .encodeLookup) := by decide

/-! ### Single steps on the spec's vectors -/

/-- V-SES-2, V-SES-4. -/
theorem test_nop :
    exec .nop (session []) = .next (session []) ∧
    exec .nop { session [] with status := .fault, faultCode := 1 } =
      .next { session [] with status := .fault, faultCode := 1 } := ⟨rfl, rfl⟩

/-- V-DEC-1, V-DEC-2: D0's example, and the same with one bit of the wire checksum changed. -/
theorem test_decode_example :
    nextWith (exec .decode (session [0x5B, 0x5A, 0x02, 0x00, 0x5E, 0x01, 0xDE, 0xCB, 0x5D])) (fun t =>
      outBytes t == some [0x5B, 0x5A, 0x00, 0x5D, 0xDE, 0xCB, 0x5D] && t.parsed == 0xDECB && t.valid) = true ∧
    nextWith (exec .decode (session [0x5B, 0x5A, 0x02, 0x00, 0x5E, 0x01, 0xDE, 0xCA, 0x5D])) (fun t =>
      outBytes t == some [0x5B, 0x5A, 0x00, 0x5D, 0xDE, 0xCB, 0x5D] && t.parsed == 0xDECA && !t.valid) = true := by
  decide +kernel

/-- V-DEC-24, V-DEC-25: both checksum bytes escaped; high escaped and low raw. -/
theorem test_decode_checksum_forms :
    nextWith (exec .decode (session [0x5B, 0x5E, 0x01, 0xFD, 0x5A, 0x01, 0x5E, 0x02, 0x5D])) (fun t =>
      outBytes t == some [0x5B, 0x5D, 0xFD, 0x5B, 0x5E, 0x5D] && t.valid && t.escLen == 4 && t.payLen == 3) = true ∧
    nextWith (exec .decode (session [0x5B, 0x7C, 0x5E, 0x02, 0xEB, 0x5D])) (fun t =>
      outBytes t == some [0x5B, 0x7C, 0x5E, 0xEB, 0x00, 0x5D] && t.parsed == 0x02EB && !t.valid) = true := by
  decide

/-- V-FUL-8, V-FUL-1: a window across the checksum boundary; the empty frame. -/
theorem test_full_decode :
    nextWith (exec .fullDecode (session [0x5B, 0x11, 0x5A, 0x01, 0x22, 0x5D])) (fun t =>
      outBytes t == some [0x5B, 0x11, 0x5B, 0x22, 0x5D] && t.crc == 0xFFFF) = true ∧
    nextWith (exec .fullDecode (session [])) (fun t => t.outLen == 0 && t.status == .done) = true := by
  decide

/-- V-SES-16, V-SES-18. -/
theorem test_reserved_command :
    nextWith (exec .reservedCmd { session [] with status := .done }) (fun t =>
      t.status == .fault && t.faultCode == 3) = true ∧
    nextWith (exec .reservedCmd { session [] with status := .fault, faultCode := 1 }) (fun t =>
      t.faultCode == 1) = true := by decide

/-- V-CRC-1 as a scan step: the decoded byte `00`, not a wire byte, enters the CRC. -/
theorem test_literal_step :
    nextWith (exec (.lit1 0x00) (scanning [0x5B, 0x00, 0xE1, 0xF0, 0x5D] 1)) (fun t =>
      t.crc == 0xE1F0 && t.i == 1 && t.o == 1 && t.outMem == [(0, 0x5B), (1, 0x00)]) = true := by decide

/-- V-RUN-7 to V-RUN-10: each escape emits its byte and advances two. -/
theorem test_escape_steps :
    nextWith (exec .esc5B (scanning [0x5B, 0x5A, 0x01, 0, 0, 0x5D] 2)) (fun t =>
      t.crc == 0x0A6E && t.i == 2 && t.o == 1 && t.outMem == [(0, 0x5B), (1, 0x5B)]) = true ∧
    nextWith (exec .esc5A (scanning [0x5B, 0x5A, 0x02, 0, 0, 0x5D] 2)) (fun t =>
      t.crc == 0x1A4F && t.i == 2 && t.outMem == [(0, 0x5B), (1, 0x5A)]) = true ∧
    nextWith (exec .esc5D (scanning [0x5B, 0x5E, 0x01, 0, 0, 0x5D] 2)) (fun t =>
      t.crc == 0x6AA8 && t.i == 2 && t.outMem == [(0, 0x5B), (1, 0x5D)]) = true ∧
    nextWith (exec .esc5E (scanning [0x5B, 0x5E, 0x02, 0, 0, 0x5D] 2)) (fun t =>
      t.crc == 0x5ACB && t.i == 2 && t.outMem == [(0, 0x5B), (1, 0x5E)]) = true := by decide

/-- V-ENC-2 to V-ENC-6. -/
theorem test_encode_lookups :
    nextWith (exec .enc5B (session [])) (fun t => t.reply == .escape 0x5A 0x01) = true ∧
    nextWith (exec .enc5A (session [])) (fun t => t.reply == .escape 0x5A 0x02) = true ∧
    nextWith (exec .enc5D (session [])) (fun t => t.reply == .escape 0x5E 0x01) = true ∧
    nextWith (exec .enc5E (session [])) (fun t => t.reply == .escape 0x5E 0x02) = true ∧
    nextWith (exec (.encNone 0x00) (session [])) (fun t => t.reply == .noEscape) = true := by decide

/-- V-SES-20, V-SES-22. -/
theorem test_load :
    nextWith (exec (.load [0x5B, 0x00, 0xE1, 0xF0, 0x5D]) { session [] with status := .fault, faultCode := 2 })
      (fun t => t.status == .fresh && t.faultCode == 0 && t.crc == 0xFFFF && t.len == 5) = true ∧
    nextWith (exec (.load (List.replicate 17 0)) (cappedSession [0x5B])) (fun t =>
      t.status == .fault && t.faultCode == 4 && t.len == 1) = true := by decide

/-- V-CRC-6, V-CRC-12. -/
theorem test_crc_update :
    nextWith (exec (.crcUpd 0xAB) { session [] with crc := 0x1234 }) (fun t => t.crc == 0x02F2) = true ∧
    nextWith (exec (.crcUpd 0x5D) { session [] with crc := 0xFC7B }) (fun t => t.crc == 0xDECB) = true := by
  decide

/-- V-CSX-13, V-CSX-17: `LEN = 5` with the start byte in the second window; a lead byte with a wrong second byte. -/
theorem test_csx :
    nextWith (exec .csx (session [0x5B, 0xFF, 0x5A, 0x01, 0x5D])) (fun t =>
      t.parsed == 0xFF5B && t.escLen == 3 && t.payLen == 0) = true ∧
    nextWith (exec .csx (session [0x5B, 0x5A, 0x03, 0x5A, 0x01, 0x5D])) (fun t =>
      t.parsed == 0x035B && t.escLen == 3 && t.payLen == 1) = true := by decide

/-- V-SES-5, V-SES-6: `STATUS` reads `0D` and `05`. -/
theorem test_status_word :
    nextWith (exec (.readOut (.reg 1)) { session [] with status := .done, mode := .decoded, valid := true })
      (fun t => t.reply == .status 0x0D) = true ∧
    nextWith (exec (.readOut (.reg 1)) { session [] with status := .done, mode := .decoded })
      (fun t => t.reply == .status 0x05) = true := by decide

/-! ### The consumer on D0's examples (spec/48_cursor_reader_consumer.md R209, R213, R214, R215, R216) -/

/-- A reader over plain bytes. -/
def reader (bs : List Byte) : Reader := ⟨bs, 0, .raw, 0, 0, false⟩

/-- Date parameters with base year 2000, a fallback in 1970 and a UTC epoch of 1970. -/
def dates : DateParams :=
  ⟨2000, ⟨1970, 1, 1, 0, 0, 0, 0⟩, ⟨2024, 2, 29, 0, 0, 0, 0⟩, ⟨1970, 1, 1, 0, 0, 0, 0⟩, 9999⟩

/-- What a read answers. -/
def read {α : Type} (e : Except ReaderError (α × Reader)) : Option α := e.toOption.map Prod.fst

theorem test_reader_numbers :
    read ((reader [0x00, 0x00, 0x01, 0x2C]).readBigNumber 4) = some "300" ∧
    read ((reader [0x00, 0x12]).readBcd true 4) = some "12" ∧
    read ((reader [0x00, 0x00]).readBcd true 4) = some "" := by decide +kernel

/-- R215: the digit pairs, and R216's printed example, which only the binary base fits. -/
theorem test_reader_date6 :
    read ((reader [0x07, 0x09, 0x15, 0x10, 0x30, 0x45]).readDate6 dates) = some ⟨2007, 9, 15, 10, 30, 45, 0⟩ ∧
    read ((reader [0x07, 0x09, 0x0F, 0x0A, 0x1E, 0x2D]).readDate6 dates) = some dates.fallback ∧
    read ((reader [0x07, 0x09, 0x0F, 0x0A, 0x1E, 0x2D]).readDate6 dates binaryBase) =
      some ⟨2007, 9, 15, 10, 30, 45, 0⟩ := by decide +kernel

/-- Out of range: a sub-second value of 1000 (R217), the year 0 (R218), a second past the calendar (R219); and the leap day that starts 08:00 before midnight UTC (R219). -/
theorem test_reader_dates_out_of_range :
    read ((reader [0x23, 0x59, 0x59, 0x10, 0x00]).readTime5 dates) = some dates.fallback ∧
    read ((reader [0x00, 0x00, 0x01, 0x01]).readDate4 dates) = some dates.fallback ∧
    read ((reader [0xFF, 0xFF, 0xFF, 0xFF, 0xFF, 0xFF, 0xFF, 0xFF]).readSeconds8 dates) = some dates.fallback ∧
    read ((reader [0x00, 0x00, 0x00, 0x00, 0x38, 0xBB, 0x0C, 0x00]).readSeconds8 dates) =
      some ⟨2000, 2, 29, 8, 0, 0, 0⟩ := by decide +kernel

/-- R213, R223 and U16: a skip of one byte by default, and no answer for a negative remaining length. -/
theorem test_reader_remaining :
    ((reader [0x5B, 0x00]).skip.bind fun r => r.remaining).toOption = some 1 ∧
    ({ reader [0x5B, 0x5D] with mode := .decoded } : Reader).remaining.toOption = none := by decide

/-- R206: a reader held across `DECODE` shows `OUT` (the frame of `C7`, V-DEC-18), here with its cursor where it was; after the second decode it shows nothing. -/
theorem test_reader_follows :
    nextWith (exec .decode (session [0x5B, 0xC7, 0x48, 0x5A, 0x01, 0x5D])) (fun t =>
      (((readerAt 1 (session [0x5B, 0xC7, 0x48, 0x5A, 0x01, 0x5D])).bind fun r =>
        r.follow id (session [0x5B, 0xC7, 0x48, 0x5A, 0x01, 0x5D]) t).map fun r => (r.view, r.cur, r.mode)) ==
        some ([0x5B, 0xC7, 0x48, 0x5B, 0x5D], 1, .decoded) &&
      nextWith (exec .decode t) (fun u => (readerAt 1 u).isNone)) = true := by decide

/-! ### The table's words as the first instruction after reset -/

theorem test_reset_runs_a_command_word :
    nextWith (step (State.reset.withFetchWord 8 0b00000010)) (fun t => t.status == .done && t.outLen == 0) = true ∧
    nextWith (step (State.reset.withFetchWord 8 0b00000011)) (fun t => t.faultCode == 3) = true := by decide

theorem test_reset_runs_a_symbol_word :
    nextWith (step (State.reset.withFetchWord 16 0b0101111000000001)) (fun t =>
      t.outMem == [(0, 0x5D)] && t.i == 2 && t.phase == .asm) = true ∧
    nextWith (step (State.reset.withFetchWord 8 0x41)) (fun t => t.outMem == [(0, 0x41)] && t.i == 1) = true := by
  decide

theorem test_reset_runs_a_lookup_word :
    nextWith (step (State.reset.withFetchWord 8 0b01011101)) (fun t => t.reply == .escape 0x5E 0x01) = true := by
  decide

/-! ### Witnesses: encodings and the Escape Table -/

/-- DecodeOfEncodeIsIdentity: a lead byte as a literal, followed by a byte that completes no window. -/
theorem witness_DecodeOfEncodeIsIdentity :
    (Instr.lit1 0x5A).wellFormed = true ∧ encode (.lit1 0x5A) = some (.wire, [0x5A]) ∧
    ∀ b b1 rest', Instr.lit1 0x5A = .lit1 b → [(0x03 : Byte)] = b1 :: rest' → (esc b b1).2 = false := by
  refine ⟨rfl, rfl, fun b b1 rest' hi hr => ?_⟩
  cases hi; cases hr; decide

/-- EncodeOfDecodeIsIdentity, in each context. -/
theorem witness_EncodeOfDecodeIsIdentity :
    decode .command [0b00000111, 0x01] = .ok (.reservedCmd, [0x01]) ∧
    decode .wire [0x5E, 0x02] = .ok (.esc5E, []) ∧ decode .encodeLookup [0x00] = .ok (.encNone 0x00, []) := by
  decide

/-- EscapeTableContract: windows next to the four. -/
theorem witness_EscapeTableContract :
    ((0x5A : Byte), (0x03 : Byte)) ∉ [((0x5A : Byte), (0x01 : Byte)), (0x5A, 0x02), (0x5E, 0x01), (0x5E, 0x02)] ∧
    ((0x5B : Byte), (0x01 : Byte)) ∉ [((0x5A : Byte), (0x01 : Byte)), (0x5A, 0x02), (0x5E, 0x01), (0x5E, 0x02)] := by
  decide

/-- EncodeLookupsAnswerTheirRow. -/
theorem witness_EncodeLookupsAnswerTheirRow : (Instr.encNone 0x5C).wellFormed = true := by decide

/-- SingleByteChangeChangesCrc. -/
theorem witness_SingleByteChangeChangesCrc : (0x00 : Byte) ≠ 0x01 := by decide

/-! ### Witnesses: symbols -/

/-- SymbolsEmitAndAdvance and SymbolsLeaveTheRest, `DECODE`: the last cell of `OUT` a symbol can be written to. -/
theorem witness_SymbolsEmitAndAdvance_decode :
    symbolByte .esc5B = some 0x5B ∧ (scanning [0x5B, 0x5A, 0x01] 2).kind = .decode ∧
    1 + ({ scanning [0x5B, 0x5A, 0x01] 2 with o := 1 } : State).o < (scanning [0x5B, 0x5A, 0x01] 2).len ∧
    nextWith (exec .esc5B { scanning [0x5B, 0x5A, 0x01] 2 with o := 1 }) (fun _ => true) = true := by
  decide

/-- SymbolsEmitAndAdvance and SymbolsLeaveTheRest, `FULL_DECODE`: a frame of one byte. -/
theorem witness_SymbolsEmitAndAdvance_full :
    symbolByte (.lit1 0x5A) = some 0x5A ∧ (scanningFull [0x5A]).kind = .full ∧
    (scanningFull [0x5A]).o < (scanningFull [0x5A]).len ∧
    nextWith (exec (.lit1 0x5A) (scanningFull [0x5A])) (fun _ => true) = true := by decide

/-- SymbolBeyondCapacityStops: the first index past the capacity. -/
theorem witness_SymbolBeyondCapacityStops :
    symbolByte (.lit1 0x5A) = some 0x5A ∧
    (scanning [0x5B, 0x5A, 0x01] 2).len ≤
      scanBase { scanning [0x5B, 0x5A, 0x01] 2 with o := 2 } + ({ scanning [0x5B, 0x5A, 0x01] 2 with o := 2 } : State).o := by
  decide

/-! ### Witnesses: checksum extraction -/

/-- The frame's last five bytes, as the statement about CSX reads them. -/
def csxBytes (s : State) : List (Option Byte) :=
  [Memory.read s.inMem (s.len - 5), Memory.read s.inMem (s.len - 4), Memory.read s.inMem (s.len - 3),
    Memory.read s.inMem (s.len - 2)]

/-- ChecksumExtraction, the first window does not match (V-CSX-1, `LEN = 5`). -/
theorem witness_ChecksumExtraction_raw :
    5 ≤ (session [0x5B, 0x00, 0xE1, 0xF0, 0x5D]).len ∧
    csxBytes (session [0x5B, 0x00, 0xE1, 0xF0, 0x5D]) = [some 0x5B, some 0x00, some 0xE1, some 0xF0] ∧
    (esc 0xE1 0xF0).2 = false := by decide

/-- ChecksumExtraction, only the first window matches (V-CSX-13, `LEN = 5`). -/
theorem witness_ChecksumExtraction_low_escaped :
    csxBytes (session [0x5B, 0xFF, 0x5A, 0x01, 0x5D]) = [some 0x5B, some 0xFF, some 0x5A, some 0x01] ∧
    (esc 0x5A 0x01).2 = true ∧ (esc 0x5B 0xFF).2 = false := by decide

/-- ChecksumExtraction, both windows match in `LEN = 6` (V-CSX-15), and ExtractionOfDoublyEscapedFiveBytesFaults, in `LEN = 5` (V-CSX-14). -/
theorem witness_ChecksumExtraction_both_escaped :
    csxBytes (session [0x5B, 0x5A, 0x01, 0x5A, 0x01, 0x5D]) = [some 0x5A, some 0x01, some 0x5A, some 0x01] ∧
    (session [0x5B, 0x5A, 0x01, 0x5A, 0x01, 0x5D]).len = 6 ∧
    csxBytes (session [0x5A, 0x01, 0x5A, 0x01, 0x5D]) = [some 0x5A, some 0x01, some 0x5A, some 0x01] ∧
    (session [0x5A, 0x01, 0x5A, 0x01, 0x5D]).len = 5 ∧
    (session [0x5A, 0x01, 0x5A, 0x01, 0x5D]).status ≠ .fault := by decide

/-- ExtractionSeesOnlyLastFiveBytes: two frames that differ before them. -/
theorem witness_ExtractionSeesOnlyLastFiveBytes :
    (session [0x5B, 0x11, 0x22, 0x33, 0x5E, 0x02, 0x5D]).len = (session [0x5A, 0x00, 0x22, 0x33, 0x5E, 0x02, 0x5D]).len ∧
    csxBytes (session [0x5B, 0x11, 0x22, 0x33, 0x5E, 0x02, 0x5D]) =
      csxBytes (session [0x5A, 0x00, 0x22, 0x33, 0x5E, 0x02, 0x5D]) ∧
    nextWith (exec .csx (session [0x5B, 0x11, 0x22, 0x33, 0x5E, 0x02, 0x5D])) (fun t => t.payLen == 2) = true ∧
    nextWith (exec .csx (session [0x5A, 0x00, 0x22, 0x33, 0x5E, 0x02, 0x5D])) (fun t => t.payLen == 2) = true := by
  decide

/-- ExtractionBelowPreconditionStops. -/
theorem witness_ExtractionBelowPreconditionStops : (session [0x5B, 0xFF, 0xFF, 0x5D]).len < 5 := by decide

/-! ### Witnesses: the two decode commands -/

/-- DecodeResult, the three forms of the checksum field at the shortest frames (V-DEC-3, V-DEC-4, V-DEC-7). -/
theorem witness_DecodeResult :
    (ReadyAtomic (session [0x5B, 0x00, 0xE1, 0xF0, 0x5D]) ∧
      Loaded (0x5B :: [0x00] ++ [0xE1, 0xF0] ++ [0x5D]) (session [0x5B, 0x00, 0xE1, 0xF0, 0x5D]) ∧
      5 ≤ (session [0x5B, 0x00, 0xE1, 0xF0, 0x5D]).len ∧ checksumForm 0x00 [0xE1, 0xF0] = some (0xE1, 0xF0)) ∧
    (Loaded (0x5B :: [] ++ [0xFF, 0x5A, 0x01] ++ [0x5D]) (session [0x5B, 0xFF, 0x5A, 0x01, 0x5D]) ∧
      checksumForm 0x5B [0xFF, 0x5A, 0x01] = some (0xFF, 0x5B)) ∧
    (Loaded (0x5B :: [] ++ [0x5A, 0x01, 0x5A, 0x01] ++ [0x5D]) (session [0x5B, 0x5A, 0x01, 0x5A, 0x01, 0x5D]) ∧
      checksumForm 0x5B [0x5A, 0x01, 0x5A, 0x01] = some (0x5B, 0x5B)) := by decide

/-- DecodeIsTotal: five bytes with only the low checksum byte escaped. -/
theorem witness_DecodeIsTotal :
    ReadyAtomic (session [0x5B, 0xFF, 0x5A, 0x01, 0x5D]) ∧
    Loaded [0x5B, 0xFF, 0x5A, 0x01, 0x5D] (session [0x5B, 0xFF, 0x5A, 0x01, 0x5D]) ∧
    5 ≤ [(0x5B : Byte), 0xFF, 0x5A, 0x01, 0x5D].length ∧
    ∀ a b c d e : Byte, [0x5B, 0xFF, 0x5A, 0x01, 0x5D] = [a, b, c, d, e] →
      ¬ ((esc a b).2 = true ∧ (esc c d).2 = true) := by
  refine ⟨by decide, by decide, by decide, fun a b c d e h => ?_⟩
  cases h; decide

/-- DecodeOfDoublyEscapedFiveBytesFaults (V-DEC-5). -/
theorem witness_DecodeOfDoublyEscapedFiveBytesFaults :
    ReadyAtomic (session [0x5A, 0x01, 0x5A, 0x01, 0x5D]) ∧
    Loaded [0x5A, 0x01, 0x5A, 0x01, 0x5D] (session [0x5A, 0x01, 0x5A, 0x01, 0x5D]) ∧
    (esc 0x5A 0x01).2 = true := by decide

/-- DecodeOfShortFrameFaults (V-DEC-6). -/
theorem witness_DecodeOfShortFrameFaults :
    (session [0x5B, 0xFF, 0xFF, 0x5D]).status = .fresh ∧ (session [0x5B, 0xFF, 0xFF, 0x5D]).len < 5 := by decide

/-- DecodeCommandsLeaveTheRest: each command completes, and each is refused in `DONE`. -/
theorem witness_DecodeCommandsLeaveTheRest :
    FrameHeld (session [0x5B, 0x00, 0xE1, 0xF0, 0x5D]) ∧
    nextWith (exec .decode (session [0x5B, 0x00, 0xE1, 0xF0, 0x5D])) (fun t => t.status == .done) = true ∧
    nextWith (exec .fullDecode (session [0x5B, 0x00, 0xE1, 0xF0, 0x5D])) (fun t => t.status == .done) = true ∧
    nextWith (exec .fullDecode { session [0x5B] with status := .done }) (fun t => t.faultCode == 2) = true := by
  decide

/-- ValidityComparesPayloadCrcWithParsed and ConsumerContentIsThePayload: a valid frame and an invalid one. -/
theorem witness_ValidityComparesPayloadCrcWithParsed :
    FrameHeld (session [0x5B, 0x00, 0xE1, 0xF0, 0x5D]) ∧ ReadyAtomic (session [0x5B, 0x00, 0xE1, 0xF0, 0x5D]) ∧
    nextWith (exec .decode (session [0x5B, 0x00, 0xE1, 0xF0, 0x5D])) (fun t => t.status == .done && t.valid) = true ∧
    nextWith (exec .decode (session [0x5B, 0x01, 0x02, 0x03, 0x04, 0x5D])) (fun t =>
      t.status == .done && !t.valid) = true := by decide

/-- EncodedFrameDecodesToItsPayload and FullDecodeOfEncodedFrame: the frames of `C7` and of `EA 4F`, whose checksum bytes are escaped (V-DEC-18, V-DEC-21). -/
theorem witness_EncodedFrameDecodesToItsPayload :
    ReadyAtomic (session [0x5B, 0xC7, 0x48, 0x5A, 0x01, 0x5D]) ∧ [(0xC7 : Byte)] ≠ [] ∧
    frameOf defaultConfig [0xC7] = [0x5B, 0xC7, 0x48, 0x5A, 0x01, 0x5D] ∧
    Loaded (frameOf (session [0x5B, 0xC7, 0x48, 0x5A, 0x01, 0x5D]).cfg [0xC7])
      (session [0x5B, 0xC7, 0x48, 0x5A, 0x01, 0x5D]) ∧
    ¬ (isEscapable (hiByte (crcRun defaultConfig [0xC7])) = true ∧
      isEscapable (loByte (crcRun defaultConfig [0xC7])) = false) ∧
    frameOf defaultConfig [0xEA, 0x4F] = [0x5B, 0xEA, 0x4F, 0x5A, 0x01, 0x5E, 0x01, 0x5D] ∧
    ¬ (isEscapable (hiByte (crcRun defaultConfig [0xEA, 0x4F])) = true ∧
      isEscapable (loByte (crcRun defaultConfig [0xEA, 0x4F])) = false) := by decide

/-- HighEscapedLowRawIsMisread: the shortest frame, with no payload byte before the sequence. -/
theorem witness_HighEscapedLowRawIsMisread :
    ReadyAtomic (session [0x5B, 0x5E, 0x02, 0xEB, 0x5D]) ∧
    Loaded (0x5B :: [] ++ [0x5E, 0x02, 0xEB, 0x5D]) (session [0x5B, 0x5E, 0x02, 0xEB, 0x5D]) ∧
    (esc 0x5E 0x02).2 = true := by decide

/-- FullDecodeResult: the empty frame and a frame of one escape. -/
theorem witness_FullDecodeResult :
    (session []).status = .fresh ∧ (session []).grain = .atomic ∧ Loaded [] (session []) ∧
    Loaded [0x5A, 0x01] (session [0x5A, 0x01]) := by decide

/-! ### Witnesses: commands and faults -/

/-- ReservedCommandFaults, CommandsAreIgnoredInFault and RaiseWritesStateAndCodeOnly: a state in `FAULT` and one that is not. -/
theorem witness_ReservedCommandFaults :
    (session []).status ≠ .fault ∧ ({ session [] with status := .fault } : State).status = .fault ∧
    Instr.fullDecode ∈ [Instr.nop, .decode, .fullDecode, .reservedCmd] := by decide

/-- FaultPriority: a short frame in `DONE` and in `FRESH`, and five bytes doubly escaped. -/
theorem witness_FaultPriority :
    ({ session [0x5B] with status := .done } : State).status ≠ .fault ∧
    ({ session [0x5B] with status := .done } : State).status ≠ .fresh ∧
    (session [0x5B, 0xFF, 0xFF, 0x5D]).status = .fresh ∧ (session [0x5B, 0xFF, 0xFF, 0x5D]).len < 5 ∧
    (session [0x5A, 0x01, 0x5A, 0x01, 0x5D]).grain = .atomic ∧
    Loaded [0x5A, 0x01, 0x5A, 0x01, 0x5D] (session [0x5A, 0x01, 0x5A, 0x01, 0x5D]) ∧
    (esc 0x5A 0x01).2 = true := by decide

/-- StepwiseAdmissionEntersBusy. -/
theorem witness_StepwiseAdmissionEntersBusy :
    ({ session [0x5B, 0x00, 0xE1, 0xF0, 0x5D] with grain := .stepwise } : State).status = .fresh ∧
    5 ≤ ({ session [0x5B, 0x00, 0xE1, 0xF0, 0x5D] with grain := .stepwise } : State).len := by decide

/-! ### Witnesses: session control -/

/-- LoadConstructsSession and LoadForgetsPreviousSession: a frame exactly as long as the capacity, and two sessions that agree only in the fields the statement names. -/
theorem witness_LoadConstructsSession :
    (∀ m, (cappedSession []).cfg.maxLen = some m → (List.replicate 16 (0 : Byte)).length ≤ m.val) ∧
    (cappedSession []).cfg = (cappedSession [0x5B]).cfg ∧
    (cappedSession []).requests = (cappedSession [0x5B]).requests ∧
    (cappedSession []).grain = (cappedSession [0x5B]).grain ∧
    (cappedSession []).draws = (cappedSession [0x5B]).draws := by
  refine ⟨fun m h => ?_, rfl, rfl, rfl, rfl⟩
  cases h; decide

/-- LoadOverCapacityFaults: one byte over the capacity, outside `FAULT` and in it; and an unbounded capacity. -/
theorem witness_LoadOverCapacityFaults :
    (cappedSession []).cfg.maxLen = some ⟨16, by decide⟩ ∧ 16 < (List.replicate 17 (0 : Byte)).length ∧
    (cappedSession []).status ≠ .fault ∧ ({ cappedSession [] with status := .fault } : State).status = .fault ∧
    (session []).cfg.maxLen = none := ⟨rfl, by decide, by decide, rfl, rfl⟩

/-- StatusReadsItsFields and ResultRegistersRead: a completed session with one cell of `OUT`. -/
theorem witness_ResultRegistersRead :
    ({ session [0x5A] with status := .done, outLen := 1, outMem := [(0, 0x5A)] } : State).status = .done ∧
    0 < ({ session [0x5A] with status := .done, outLen := 1, outMem := [(0, 0x5A)] } : State).outLen ∧
    Memory.read ({ session [0x5A] with status := .done, outLen := 1, outMem := [(0, 0x5A)] } : State).outMem 0 =
      some 0x5A := by decide

/-- ReadOutHasNoSideEffect: the first and the last register, and a cell of `OUT` no command has written. -/
theorem witness_ReadOutHasNoSideEffect :
    (Instr.readOut (.reg 1)).wellFormed = true ∧ (Instr.readOut (.reg 5)).wellFormed = true ∧
    (Instr.readOut (.out 99)).wellFormed = true := by decide

/-- ForbiddenRegisterAccessIsRefused: the registers where its clauses meet. -/
theorem witness_ForbiddenRegisterAccessIsRefused :
    ({ session [] with requests := [.write 5 0] } : State).phase = .admission ∧
    step { session [] with requests := [.write 1 0] } = .refused (.readOnlyRegister 1) ∧
    step { session [] with requests := [.write 5 0] } = .refused (.readOnlyRegister 5) ∧
    step { session [] with requests := [.write 6 0] } = .refused (.noSuchRegister 6) ∧
    exec (.readOut (.reg 6)) (session []) = .refused (.noSuchRegister 6) := ⟨rfl, rfl, rfl, rfl, rfl⟩

/-! ### Witnesses: steps -/

/-- StepRunsHostRequest: no request, and one of each kind. -/
theorem witness_StepRunsHostRequest :
    (session []).phase = .admission ∧ (session []).requests = [] ∧
    ({ session [] with requests := [.load [0x5B]] } : State).requests = .load [0x5B] :: [] ∧
    ({ session [] with requests := [.read (.reg 1)] } : State).requests = .read (.reg 1) :: [] ∧
    ({ session [] with requests := [.encode 0x5B] } : State).requests = .encode 0x5B :: [] ∧
    ({ session [] with requests := [.write 0 5] } : State).requests = .write 0 5 :: [] := by decide

/-- StepRunsDecodedSymbol: a window of two bytes, and a last byte. -/
theorem witness_StepRunsDecodedSymbol :
    ((scanningFull [0x5A, 0x01]).phase = .scan ∧ (scanningFull [0x5A, 0x01]).i < scanLen (scanningFull [0x5A, 0x01]) ∧
      Memory.read (scanningFull [0x5A, 0x01]).inMem 0 = some 0x5A ∧
      Memory.read (scanningFull [0x5A, 0x01]).inMem 1 = some 0x01 ∧
      2 ≤ scanLen (scanningFull [0x5A, 0x01]) - (scanningFull [0x5A, 0x01]).i ∧
      decode .wire [0x5A, 0x01] = .ok (.esc5B, [])) ∧
    ((scanningFull [0x5A]).i < scanLen (scanningFull [0x5A]) ∧
      ¬ 2 ≤ scanLen (scanningFull [0x5A]) - (scanningFull [0x5A]).i ∧
      Memory.read (scanningFull [0x5A]).inMem 0 = some 0x5A ∧ decode .wire [0x5A] = .ok (.lit1 0x5A, [])) := by
  decide

/-- StepRunsExtraction: CSX that raises, and CSX that does not. -/
theorem witness_StepRunsExtraction :
    nextWith (exec .csx { session [0x5A, 0x01, 0x5A, 0x01, 0x5D] with status := .busy, phase := .csx }) (fun t =>
      t.status == .fault) = true ∧
    nextWith (exec .csx { session [0x5B, 0x00, 0xE1, 0xF0, 0x5D] with status := .busy, phase := .csx }) (fun t =>
      t.status != .fault && Memory.read t.inMem 0 == some 0x5B && decide (0 < t.len)) = true := by decide

/-- HostHasNoMoveWhileBusy and OnlyLoadChangesTheFrame: a scan step with a request waiting. -/
theorem witness_HostHasNoMoveWhileBusy :
    ({ scanningFull [0x5A] with requests := [.load []] } : State).phase ≠ .admission ∧
    nextWith (step { scanningFull [0x5A] with requests := [.load []] }) (fun t => t.requests == [.load []]) = true := by
  decide

/-- StepKeepsInvariant, GoodStateNeverStops and ScanStepAdvances: a good state inside a scan of `FULL_DECODE`, with a byte left. -/
theorem witness_ScanStepAdvances :
    Inv (scanningFull [0x5A, 0x01]) ∧ (scanningFull [0x5A, 0x01]).phase = .scan ∧
    (scanningFull [0x5A, 0x01]).i < scanLen (scanningFull [0x5A, 0x01]) ∧
    nextWith (step (scanningFull [0x5A, 0x01])) (fun t => t.i == 2) = true := by
  refine ⟨⟨by decide, by decide, rfl, by decide, by decide, ?_⟩, rfl, by decide, by decide⟩
  exact ⟨rfl, by decide, rfl, rfl, rfl, rfl⟩

/-- The same inside the scan of `DECODE`: `FRAME(00)`, nothing consumed. -/
theorem witness_StepKeepsInvariant :
    Inv { scanning [0x5B, 0x00, 0xE1, 0xF0, 0x5D] 1 with hi := 0xE1, lo := 0xF0, parsed := 0xE1F0 } ∧
    nextWith (step { scanning [0x5B, 0x00, 0xE1, 0xF0, 0x5D] 1 with hi := 0xE1, lo := 0xF0, parsed := 0xE1F0 })
      (fun t => t.crc == 0xE1F0) = true := by
  refine ⟨⟨by decide, by decide, rfl, by decide, by decide, ?_⟩, by decide⟩
  exact ⟨rfl, by decide, rfl, rfl, by decide, rfl, rfl⟩

/-- CompletedSessionLaws, after `FULL_DECODE`: the empty frame. -/
theorem witness_CompletedSessionLaws_full :
    Inv { session [] with status := .done, mode := .decoded, kind := .full } ∧
    ({ session [] with status := .done, mode := .decoded, kind := .full } : State).status = .done := by
  refine ⟨⟨by decide, by decide, rfl, by decide, by decide, ?_⟩, rfl⟩
  exact ⟨rfl, rfl, rfl, rfl⟩

/-- CompletedSessionLaws, after `DECODE` (V-DEC-4): the empty payload, an invalid checksum. -/
theorem witness_CompletedSessionLaws_decode :
    Inv { session [0x5B, 0xFF, 0x5A, 0x01, 0x5D] with
      status := .done, mode := .decoded, kind := .decode, escLen := 3, payLen := 0, hi := 0xFF, lo := 0x5B,
      parsed := 0xFF5B, valid := false, outLen := 4, outMem := Memory.ofBytes [0x5B, 0xFF, 0xFF, 0x5D] } := by
  refine ⟨by decide, by decide, rfl, by decide, by decide, ?_⟩
  exact ⟨by decide, rfl, rfl, by decide, rfl, rfl⟩

/-- OnlyLoadLeavesFault and LifecycleTransitions: a state in `FAULT` with a `LOAD` waiting, and one with a command. -/
theorem witness_OnlyLoadLeavesFault :
    PhaseFits { session [] with status := .fault, faultCode := 1, requests := [.load []] } ∧
    nextWith (step { session [] with status := .fault, faultCode := 1, requests := [.load []] }) (fun t =>
      t.status == .fresh) = true ∧
    nextWith (step { session [] with status := .fault, faultCode := 1, requests := [.write 0 3] }) (fun t =>
      t.status == .fault && t.faultCode == 1) = true := by decide

/-- StepwiseRunRefinesAtomicCommand: each of the two codes, and a written value with a higher bit set. -/
theorem witness_StepwiseRunRefinesAtomicCommand :
    FrameHeld (session [0x5B, 0x00, 0xE1, 0xF0, 0x5D]) ∧
    (session [0x5B, 0x00, 0xE1, 0xF0, 0x5D]).status = .fresh ∧
    (session [0x5B, 0x00, 0xE1, 0xF0, 0x5D]).phase = .admission ∧
    (session [0x5B, 0x00, 0xE1, 0xF0, 0x5D]).grain = .atomic ∧
    BitVec.ofNat 2 5 = 0b01 ∧ BitVec.ofNat 2 2 = 0b10 ∧
    nextWith (exec (commandOf 0b01) (session [0x5B, 0x00, 0xE1, 0xF0, 0x5D])) (fun _ => true) = true ∧
    nextWith (exec (commandOf 0b10) (session [0x5B, 0x00, 0xE1, 0xF0, 0x5D])) (fun _ => true) = true := by
  decide

/-! ### Witnesses: the consumer -/

/-- HeldReaderSeesTheReplacedView: a reader past the start byte of a frame that decodes, and of one that faults in `DECODE`. -/
theorem witness_HeldReaderSeesTheReplacedView :
    FrameHeld (session [0x5B, 0x00, 0xE1, 0xF0, 0x5D]) ∧ ReadyAtomic (session [0x5B, 0x00, 0xE1, 0xF0, 0x5D]) ∧
    (readerAt 1 (session [0x5B, 0x00, 0xE1, 0xF0, 0x5D])).any (fun r => r.cur == 1) = true ∧
    nextWith (exec .decode (session [0x5B, 0x00, 0xE1, 0xF0, 0x5D])) (fun t => t.status == .done) = true ∧
    nextWith (exec .fullDecode (session [0x5B, 0x00, 0xE1, 0xF0, 0x5D])) (fun t => t.status == .done) = true ∧
    (readerAt 1 (session [0x5B])).any (fun r => r.cur == 1) = true ∧
    nextWith (exec .decode (session [0x5B])) (fun t => t.status == .fault) = true := by decide

end Sys2Proof.Tests
end

/-! PROOFS. The register file, what every step keeps of the session, and what each command leaves (spec/10_state.md R21 to R42). -/

namespace Sys2Proof.Machine

/-! ### The status register (R37) -/

theorem statusWord_faultCode (s : State) : (statusWord s).extractLsb' 4 4 = s.faultCode :=
  calc (statusWord s).extractLsb' 4 4
      = (s.faultCode ++ shownValid s ++ shownMode s).extractLsb' 2 4 :=
        BitVec.extractLsb'_append_eq_of_le (by decide)
    _ = (s.faultCode ++ shownValid s).extractLsb' 1 4 := BitVec.extractLsb'_append_eq_of_le (by decide)
    _ = s.faultCode := BitVec.extractLsb'_append_eq_left

theorem statusWord_valid (s : State) : (statusWord s).extractLsb' 3 1 = shownValid s :=
  calc (statusWord s).extractLsb' 3 1
      = (s.faultCode ++ shownValid s ++ shownMode s).extractLsb' 1 1 :=
        BitVec.extractLsb'_append_eq_of_le (by decide)
    _ = (s.faultCode ++ shownValid s).extractLsb' 0 1 := BitVec.extractLsb'_append_eq_of_le (by decide)
    _ = shownValid s := BitVec.extractLsb'_append_eq_right

theorem statusWord_mode (s : State) : (statusWord s).extractLsb' 2 1 = shownMode s :=
  calc (statusWord s).extractLsb' 2 1
      = (s.faultCode ++ shownValid s ++ shownMode s).extractLsb' 0 1 :=
        BitVec.extractLsb'_append_eq_of_le (by decide)
    _ = shownMode s := BitVec.extractLsb'_append_eq_right

theorem statusWord_status (s : State) : (statusWord s).extractLsb' 0 2 = statusCode s.status :=
  BitVec.extractLsb'_append_eq_right

/-- Settles O41: the four fields of the status word stand where `statusWord` puts them. -/
theorem statusReadsItsFields : Obligations.StatusReadsItsFields := by
  intro s
  refine ⟨statusWord s, rfl, statusWord_faultCode s, ?_, fun hf => ?_, fun hd => ?_⟩
  · rw [statusWord_status]; cases s.status <;> rfl
  · rw [statusWord_mode, shownMode, if_neg hf]; cases s.mode <;> rfl
  · rw [statusWord_valid, shownValid, if_pos hd, validBit]

/-! ### Refused register accesses (R37, log 17) -/

theorem readOut_noSuchRegister {n : Nat} (h : 6 ≤ n) (s : State) :
    readOut (.reg n) s = .error (.noSuchRegister n) := by
  obtain ⟨k, rfl⟩ := Nat.exists_eq_add_of_le' h
  rfl

/-- A write of a register other than `CMD` stands for no instruction. -/
theorem requestInstr_write {n : Nat} (h : 1 ≤ n) (v : Nat) :
    requestInstr (.write n v) = if n ≤ 5 then .error (.readOnlyRegister n) else .error (.noSuchRegister n) := by
  obtain ⟨k, rfl⟩ := Nat.exists_eq_add_of_le' h
  rfl

/-- A request that stands for no instruction is refused. -/
theorem step_refused {s : State} {r : Request} {rest : List Request} (hp : s.phase = .admission)
    (hr : s.requests = r :: rest) {e : Refusal} (he : requestInstr r = .error e) : step s = .refused e := by
  simp [step, hp, hr, he]

/-- Settles O44, from what a read-out and a write of each register number stand for. -/
theorem forbiddenRegisterAccessIsRefused : Obligations.ForbiddenRegisterAccessIsRefused := by
  intro s n v rest
  refine ⟨rfl, fun h6 => ?_, fun hp hr => ⟨fun h1 h5 => ?_, fun h6 => ?_⟩⟩
  · simp [exec, execReadOut, readOut_noSuchRegister h6]
  · exact step_refused hp hr (by rw [requestInstr_write h1, if_pos h5])
  · exact step_refused hp hr (by rw [requestInstr_write (by omega), if_neg (by omega)])

/-! ### Power-on (R40, R270) -/

/-- Settles O49: the reset state is the fresh session of the empty frame. -/
theorem resetMeetsInvariant : Obligations.ResetMeetsInvariant where
  frame := ⟨rfl, rfl⟩
  out := ⟨rfl, fun _ hc => absurd hc List.not_mem_nil⟩
  capacity := rfl
  faultCode := rfl
  phase := ⟨fun _ => Status.noConfusion, fun _ => rfl⟩
  session := ⟨rfl, rfl, rfl⟩

/-! ### What no operation but `LOAD` and the answers touches -/

/-- The parameters, the frame and the host's side are the same before and after (R26, R33, R35). -/
structure SessionKept (s t : State) : Prop where
  cfg : t.cfg = s.cfg
  inMem : t.inMem = s.inMem
  len : t.len = s.len
  requests : t.requests = s.requests
  reply : t.reply = s.reply
  grain : t.grain = s.grain

theorem SessionKept.refl (s : State) : SessionKept s s := ⟨rfl, rfl, rfl, rfl, rfl, rfl⟩

theorem SessionKept.trans {s t u : State} (h : SessionKept s t) (h' : SessionKept t u) : SessionKept s u :=
  ⟨h'.cfg.trans h.cfg, h'.inMem.trans h.inMem, h'.len.trans h.len, h'.requests.trans h.requests,
    h'.reply.trans h.reply, h'.grain.trans h.grain⟩

theorem sessionKept_raise (f : Trap) (s : State) : SessionKept s (raise f s) :=
  ⟨raise_cfg f s, raise_inMem f s, raise_len f s, raise_requests f s, raise_reply f s, raise_grain f s⟩

theorem sessionKept_storeChecksum (f : ChecksumField) (s : State) : SessionKept s (storeChecksum f s) :=
  ⟨rfl, rfl, rfl, rfl, rfl, rfl⟩

theorem sessionKept_storePayLen (s : State) : SessionKept s (storePayLen s) := by
  unfold storePayLen
  split
  · exact sessionKept_raise _ s
  · exact ⟨rfl, rfl, rfl, rfl, rfl, rfl⟩

theorem sessionKept_csx {s t : State} (h : csx s = .ok t) : SessionKept s t := by
  obtain ⟨a, b, c, d, -, -, -, -, rfl⟩ := exec_csx_next (toOut_eq_next.2 h)
  exact (sessionKept_storeChecksum _ s).trans (sessionKept_storePayLen _)

theorem sessionKept_beginFull (s : State) : SessionKept s (beginFull s) := ⟨rfl, rfl, rfl, rfl, rfl, rfl⟩

theorem sessionKept_writeOut {s t : State} {a : Nat} {b : Byte} (h : writeOut a b s = .ok t) : SessionKept s t := by
  obtain ⟨-, rfl⟩ := writeOut_eq_ok.1 h
  exact ⟨rfl, rfl, rfl, rfl, rfl, rfl⟩

theorem sessionKept_beginDecode {s t : State} (h : beginDecode s = .ok t) : SessionKept s t := by
  simp only [beginDecode, except_bind_eq_ok, pure, Except.pure, Except.ok.injEq] at h
  obtain ⟨b, -, u, hu, rfl⟩ := h
  exact (sessionKept_writeOut hu).trans ⟨rfl, rfl, rfl, rfl, rfl, rfl⟩

/-- A scan step, where it answers, is the step of some byte and length. -/
theorem scanStep_eq_ok {s t : State} (h : scanStep s = .ok t) : ∃ b n, t = stepped b n s := by
  have of_symbol {b : Byte} {n : Nat} (h : symbolStep b n s = .ok t) : ∃ b n, t = stepped b n s :=
    ⟨b, n, (symbolStep_next (toOut_eq_next.2 h)).2⟩
  unfold scanStep at h
  obtain ⟨b0, -, h⟩ := except_bind_eq_ok.1 h
  split at h
  · obtain ⟨b1, -, h⟩ := except_bind_eq_ok.1 h
    split at h
    · exact of_symbol h
    · exact of_symbol h
  · exact of_symbol h

theorem sessionKept_stepped (b : Byte) (n : Nat) (s : State) : SessionKept s (stepped b n s) :=
  ⟨rfl, rfl, rfl, rfl, rfl, rfl⟩

theorem sessionKept_scanLoop {n : Nat} {s t : State} (h : scanLoop n s = .ok t) : SessionKept s t := by
  induction n generalizing s with
  | zero => cases h; exact .refl _
  | succ n ih =>
    unfold scanLoop at h
    split at h
    · obtain ⟨u, hu, h⟩ := except_bind_eq_ok.1 h
      obtain ⟨b, k, rfl⟩ := scanStep_eq_ok hu
      exact (sessionKept_stepped b k s).trans (ih h)
    · cases h; exact .refl _

theorem sessionKept_assembleDecode {s t : State} (h : assembleDecode s = .ok t) : SessionKept s t := by
  simp only [assembleDecode, except_bind_eq_ok, pure, Except.pure, Except.ok.injEq] at h
  obtain ⟨s1, h1, s2, h2, e, -, s3, h3, rfl⟩ := h
  exact (((sessionKept_writeOut h1).trans (sessionKept_writeOut h2)).trans (sessionKept_writeOut h3)).trans
    ⟨rfl, rfl, rfl, rfl, rfl, rfl⟩

theorem sessionKept_assemble {s t : State} (h : assemble s = .ok t) : SessionKept s t := by
  unfold assemble at h
  split at h
  · exact sessionKept_assembleDecode h
  · cases h; exact ⟨rfl, rfl, rfl, rfl, rfl, rfl⟩

theorem sessionKept_decodeRun {s t : State} (h : decodeRun s = .ok t) : SessionKept s t := by
  unfold decodeRun at h
  obtain ⟨u, hu, h⟩ := except_bind_eq_ok.1 h
  have hsu := sessionKept_csx hu
  split at h
  · cases h; exact hsu
  · obtain ⟨v, hv, h⟩ := except_bind_eq_ok.1 h
    obtain ⟨w, hw, h⟩ := except_bind_eq_ok.1 h
    exact ((hsu.trans (sessionKept_beginDecode hv)).trans (sessionKept_scanLoop hw)).trans (sessionKept_assemble h)

theorem sessionKept_fullRun {s t : State} (h : fullRun s = .ok t) : SessionKept s t := by
  obtain ⟨u, hu, h⟩ := except_bind_eq_ok.1 h
  exact ((sessionKept_beginFull s).trans (sessionKept_scanLoop hu)).trans (sessionKept_assemble h)

/-! ### What a host operation can answer -/

/-- `LOAD` constructs a session, or faults (R190, R191). -/
theorem exec_load_next {f : List Byte} {s t : State} (h : exec (.load f) s = .next t) :
    t = raise (.lenOverCapacity f.length) s ∨ t = freshSession f s := by
  simp only [exec, execLoad] at h
  split at h
  · cases h; exact .inl rfl
  · cases h; exact .inr rfl

/-- In `FAULT` every command is ignored (R246). -/
theorem exec_command_fault {i : Instr} {s : State} (hi : i ∈ [Instr.nop, .decode, .fullDecode, .reservedCmd])
    (hf : s.status = .fault) : exec i s = .next s := by
  simp only [List.mem_cons, List.not_mem_nil, or_false] at hi
  rcases hi with rfl | rfl | rfl | rfl
  · rfl
  all_goals simp [exec, execDecode, execFullDecode, execReservedCmd, unlessFault_fault hf]

/-- Outside `FRESH` a command leaves the block as it is or faults; in `FAULT` the fault changes nothing either (R246). -/
theorem exec_command_not_fresh {i : Instr} {s t : State} (hi : i ∈ [Instr.nop, .decode, .fullDecode, .reservedCmd])
    (hs : s.status ≠ .fresh) (h : exec i s = .next t) : t = s ∨ ∃ f, t = raise f s := by
  by_cases hf : s.status = .fault
  · exact .inl (by cases (exec_command_fault hi hf).symm.trans h; rfl)
  · simp only [List.mem_cons, List.not_mem_nil, or_false] at hi
    rcases hi with rfl | rfl | rfl | rfl
    · cases h; exact .inl rfl
    all_goals
      simp only [exec, execDecode, execFullDecode, execReservedCmd, unlessFault, if_neg hf, if_pos hs] at h
      cases h; exact .inr ⟨_, rfl⟩

/-- The step-wise admission of `DECODE` in `FRESH`: too short a frame, or on to CSX (R151, R160). -/
theorem exec_decode_stepwise {s t : State} (hs : s.status = .fresh) (hg : s.grain = .stepwise)
    (h : exec .decode s = .next t) : t = raise (.frameTooShort s.len) s ∨ t = enterBusy .csx s := by
  by_cases h5 : s.len < minLen
  · cases (execDecode_short hs h5).symm.trans h; exact .inl rfl
  · have : exec .decode s = .next (enterBusy .csx s) := by simp [exec, execDecode, unlessFault, hs, hg, h5]
    cases this.symm.trans h; exact .inr rfl

theorem exec_fullDecode_stepwise {s : State} (hs : s.status = .fresh) (hg : s.grain = .stepwise) :
    exec .fullDecode s = .next (enterBusy .scan (beginFull s)) := by
  simp [exec, execFullDecode, unlessFault, hs, hg]

/-- A command keeps the parameters, the frame and the host's side, in whatever state it is run. -/
theorem sessionKept_command {i : Instr} {s t : State} (hi : i ∈ [Instr.nop, .decode, .fullDecode, .reservedCmd])
    (h : exec i s = .next t) : SessionKept s t := by
  by_cases hs : s.status = .fresh
  · simp only [List.mem_cons, List.not_mem_nil, or_false] at hi
    rcases hi with rfl | rfl | rfl | rfl
    · cases h; exact .refl s
    · cases hg : s.grain with
      | stepwise =>
        rcases exec_decode_stepwise hs hg h with rfl | rfl
        · exact sessionKept_raise _ s
        · exact ⟨rfl, rfl, rfl, rfl, rfl, rfl⟩
      | atomic =>
        by_cases h5 : s.len < minLen
        · cases (execDecode_short hs h5).symm.trans h
          exact sessionKept_raise _ s
        · exact sessionKept_decodeRun (toOut_eq_next.1 ((execDecode_fresh hs (by omega) hg).symm.trans h))
    · cases hg : s.grain with
      | stepwise =>
        cases (exec_fullDecode_stepwise hs hg).symm.trans h
        exact ⟨rfl, rfl, rfl, rfl, rfl, rfl⟩
      | atomic => exact sessionKept_fullRun (toOut_eq_next.1 ((execFullDecode_fresh hs hg).symm.trans h))
    · have : exec .reservedCmd s = .next (raise (.reservedCommand 0b11) s) := by
        simp [exec, execReservedCmd, unlessFault, hs]
      cases this.symm.trans h
      exact sessionKept_raise _ s
  · rcases exec_command_not_fresh hi hs h with rfl | ⟨f, rfl⟩
    · exact .refl _
    · exact sessionKept_raise f s

/-- While a command is in progress a step keeps the parameters, the frame and the host's side (R277). -/
theorem sessionKept_busy {s t : State} (hp : s.phase ≠ .admission) (h : step s = .next t) : SessionKept s t := by
  rcases step_busy_next hp h with ⟨-, a, b, c, d, rfl | ⟨b0, rfl⟩ | ⟨-, rfl⟩⟩ | ⟨-, b, n, rfl⟩ | ⟨-, rfl⟩ |
    ⟨-, -, e, rfl⟩ | ⟨-, -, rfl⟩
  · exact (sessionKept_storeChecksum _ s).trans (sessionKept_raise _ _)
  all_goals exact ⟨rfl, rfl, rfl, rfl, rfl, rfl⟩

/-- Settles O53: every operation but `LOAD` keeps the frame, and `LOAD` keeps the parameters too. -/
theorem onlyLoadChangesTheFrame : Obligations.OnlyLoadChangesTheFrame := by
  intro s t h
  by_cases hp : s.phase = .admission
  · rcases step_admit_next hp h with ⟨-, rfl⟩ | ⟨r, rest, i, hr, -, he, hi⟩
    · exact ⟨rfl, .inl ⟨rfl, rfl⟩⟩
    rcases hi with ⟨f, rfl, rfl⟩ | ⟨sel, rfl⟩ | ⟨b, rfl⟩ | hi
    · refine ⟨?_, .inr ⟨f, rest, hp, hr⟩⟩
      rcases exec_load_next he with rfl | rfl <;> simp
    · obtain ⟨r, rfl⟩ := exec_readOut_next sel _ t he
      exact ⟨rfl, .inl ⟨rfl, rfl⟩⟩
    · obtain ⟨r, rfl⟩ := exec_encode_next b _ t he
      exact ⟨rfl, .inl ⟨rfl, rfl⟩⟩
    · have hk := sessionKept_command hi he
      exact ⟨hk.cfg, .inl ⟨hk.inMem, hk.len⟩⟩
  · have hk := sessionKept_busy hp h
    exact ⟨hk.cfg, .inl ⟨hk.inMem, hk.len⟩⟩

/-! ### What the decode commands do to `OUT` -/

/-- What a decode command does to `OUT`: nothing, or it completes and has written `OUT_LEN` bytes from index 0. -/
def OutWrittenBelowOutLen (s t : State) : Prop :=
  t.outMem = s.outMem ∨
    (s.status = .fresh ∧ t.status = .done ∧
      ∃ bs : List Byte, t.outMem = Memory.writeBytes s.outMem 0 bs ∧ bs.length = t.outLen)

theorem OutWrittenBelowOutLen.read {s t : State} (h : OutWrittenBelowOutLen s t) {a : Nat}
    (ha : s.status ≠ .fresh ∨ t.status ≠ .done ∨ t.outLen ≤ a) :
    Memory.read t.outMem a = Memory.read s.outMem a := by
  rcases h with h | ⟨hs, ht, bs, hbs, hl⟩
  · rw [h]
  · have hle : t.outLen ≤ a := (ha.resolve_left (not_not_intro hs)).resolve_left (not_not_intro ht)
    rw [hbs, Memory.read_writeBytes, if_neg (by omega)]

theorem decodeResult_outMem (b e : Byte) (f : ChecksumField) (s : State) :
    ∃ bs : List Byte, (decodeResult b e f s).outMem = Memory.writeBytes s.outMem 0 bs ∧
      bs.length = (decodeResult b e f s).outLen := by
  refine ⟨b :: scan (payloadBytes (extracted f s)) ++ [hiByte (decodeResult b e f s).crc,
    loByte (decodeResult b e f s).crc, e], ?_, ?_⟩ <;>
    simp [decodeResult, assembled, steppedMany, scanStarted, extracted, storeChecksum, scanBase, Memory.writeBytes,
      Memory.writeBytes_append, Nat.add_comm 1]

theorem outWritten_decode {s t : State} (hf : FrameHeld s) (hs : s.status = .fresh)
    (h : exec .decode s = .next t) : OutWrittenBelowOutLen s t := by
  cases hg : s.grain with
  | stepwise =>
    rcases exec_decode_stepwise hs hg h with rfl | rfl
    · exact .inl (raise_outMem _ s)
    · exact .inl rfl
  | atomic =>
    rcases exec_decode_cases hf hg hs h with ⟨-, rfl⟩ | ⟨a, b, c, d, -, ⟨-, rfl⟩ | ⟨-, b0, e, -, -, rfl⟩⟩
    · exact .inl (raise_outMem _ s)
    · exact .inl (raise_outMem _ _)
    · exact .inr ⟨hs, rfl, decodeResult_outMem b0 e _ s⟩

/-- Everything `FULL_DECODE` can do in `FRESH`, in either grain. -/
theorem exec_fullDecode_cases {s t : State} (hf : FrameHeld s) (hs : s.status = .fresh)
    (h : exec .fullDecode s = .next t) : t = enterBusy .scan (beginFull s) ∨ t = fullResult s := by
  cases hg : s.grain with
  | stepwise => cases (exec_fullDecode_stepwise hs hg).symm.trans h; exact .inl rfl
  | atomic => cases (exec_fullDecode_ok hf hs hg).symm.trans h; exact .inr rfl

theorem outWritten_fullDecode {s t : State} (hf : FrameHeld s) (hs : s.status = .fresh)
    (h : exec .fullDecode s = .next t) : OutWrittenBelowOutLen s t := by
  rcases exec_fullDecode_cases hf hs h with rfl | rfl
  · exact .inl rfl
  · rw [fullResult_eq]
    exact .inr ⟨hs, rfl, scan (frameBytes s), rfl, rfl⟩

/-- Settles O25: outside `FRESH` a command writes `STATE` and `FAULT_CODE` at most; in `FRESH` it completes, faults or enters `BUSY`, and only the completion writes `OUT`. -/
theorem decodeCommandsLeaveTheRest : Obligations.DecodeCommandsLeaveTheRest := by
  intro i s t hi hf h
  have hc : i ∈ [Instr.nop, .decode, .fullDecode, .reservedCmd] := by rcases hi with rfl | rfl <;> simp
  obtain ⟨hcfg, hin, hlen, hreq, hrep, hgrain⟩ := sessionKept_command hc h
  refine ⟨hcfg, hin, hlen, hreq, hrep, hgrain, ?_, fun a ha => OutWrittenBelowOutLen.read ?_ ha⟩
  · rintro rfl
    by_cases hs : s.status = .fresh
    · rcases exec_fullDecode_cases hf hs h with rfl | rfl
      · exact ⟨rfl, rfl, rfl, rfl, rfl, rfl, rfl⟩
      · rw [fullResult_eq]; exact ⟨rfl, rfl, rfl, rfl, rfl, rfl, rfl⟩
    · rcases exec_command_not_fresh hc hs h with rfl | ⟨f, rfl⟩ <;> simp
  · by_cases hs : s.status = .fresh
    · rcases hi with rfl | rfl
      · exact outWritten_decode hf hs h
      · exact outWritten_fullDecode hf hs h
    · rcases exec_command_not_fresh hc hs h with rfl | ⟨f, rfl⟩
      · exact .inl rfl
      · exact .inl (raise_outMem f s)

/-! ### The lifecycle (R30) -/

/-- The results a host reads in `DONE` are the same before and after. -/
def ResultsKept (s t : State) : Prop :=
  t.outMem = s.outMem ∧ t.outLen = s.outLen ∧ t.crc = s.crc ∧ t.parsed = s.parsed ∧ t.valid = s.valid ∧
    t.mode = s.mode

/-- What a step with no command in progress can do outside `FRESH`: `STATE` and the results stay, it faults, or a `LOAD` constructs a session. -/
theorem step_admit_not_fresh {s t : State} (hp : s.phase = .admission) (hs : s.status ≠ .fresh)
    (h : step s = .next t) :
    (t.status = s.status ∧ ResultsKept s t) ∨ t.status = .fault ∨
      (t.status = .fresh ∧ ∃ f rest, s.requests = .load f :: rest) := by
  rcases step_admit_next hp h with ⟨-, rfl⟩ | ⟨r, rest, i, hr, -, he, hi⟩
  · exact .inl ⟨rfl, rfl, rfl, rfl, rfl, rfl, rfl⟩
  rcases hi with ⟨f, rfl, rfl⟩ | ⟨sel, rfl⟩ | ⟨b, rfl⟩ | hi
  · rcases exec_load_next he with rfl | rfl
    · exact .inr (.inl (raise_status _ _))
    · exact .inr (.inr ⟨rfl, f, rest, hr⟩)
  · obtain ⟨r, rfl⟩ := exec_readOut_next sel _ t he
    exact .inl ⟨rfl, rfl, rfl, rfl, rfl, rfl, rfl⟩
  · obtain ⟨r, rfl⟩ := exec_encode_next b _ t he
    exact .inl ⟨rfl, rfl, rfl, rfl, rfl, rfl, rfl⟩
  · rcases exec_command_not_fresh (s := { s with requests := rest }) hi hs he with rfl | ⟨f, rfl⟩
    · exact .inl ⟨rfl, rfl, rfl, rfl, rfl, rfl, rfl⟩
    · exact .inr (.inl (raise_status _ _))

/-- A command in progress goes on, completes or faults. -/
theorem step_busy_status {s t : State} (hp : s.phase ≠ .admission) (hs : s.status = .busy) (h : step s = .next t) :
    t.status = .busy ∨ t.status = .done ∨ t.status = .fault := by
  rcases step_busy_next hp h with ⟨-, a, b, c, d, rfl | ⟨b0, rfl⟩ | ⟨-, rfl⟩⟩ | ⟨-, b, n, rfl⟩ | ⟨-, rfl⟩ |
    ⟨-, -, e, rfl⟩ | ⟨-, -, rfl⟩
  · exact .inr (.inr (raise_status _ _))
  · exact .inl hs
  · exact .inl hs
  · exact .inl hs
  · exact .inl hs
  · exact .inr (.inl rfl)
  · exact .inr (.inl rfl)

/-- Settles O55, by the `STATE` before the step: from `FRESH` everything is listed; `DONE` and `FAULT` are left by a fault or a `LOAD` only; `BUSY` ends in `DONE` or `FAULT`. -/
theorem lifecycleTransitions : Obligations.LifecycleTransitions := by
  intro s t hp h
  cases hs : s.status with
  | fresh => cases t.status <;> simp
  | busy =>
    have hph : s.phase ≠ .admission := fun ha => hp.1 ha hs
    rcases step_busy_status hph hs h with ht | ht | ht <;> rw [ht] <;> trivial
  | done =>
    rcases step_admit_not_fresh (hp.2 (by simp [hs])) (by simp [hs]) h with ⟨ht, hk⟩ | ht | ⟨ht, hl⟩
    · rw [ht, hs]; exact hk
    · rw [ht]; trivial
    · rw [ht]; exact .inr hl
  | fault =>
    rcases step_admit_not_fresh (hp.2 (by simp [hs])) (by simp [hs]) h with ⟨ht, -⟩ | ht | ⟨ht, hl⟩
    · rw [ht, hs]; trivial
    · rw [ht]; trivial
    · rw [ht]; exact .inr hl

/-! ### A scan step in a good state (R24, R25) -/

/-- In a good state a phase other than `P_ADMIT` means `BUSY`. -/
theorem Inv.busy {s : State} (h : Inv s) (hp : s.phase ≠ .admission) : s.status = .busy :=
  not_not.1 fun hb => hp (h.phase.2 hb)

theorem Inv.scanFits {s : State} (h : Inv s) (hp : s.phase = .scan) : ScanFits s := by
  have hf := h.session
  rw [SessionFits, h.busy (by simp [hp]), hp] at hf
  exact hf

/-- Inside a scan the region stands in `IN`. -/
theorem regionHeld_of_scanFits {s : State} (hf : FrameHeld s) (h : ScanFits s) : RegionHeld s := by
  obtain ⟨-, -, -, -, hk⟩ := h
  refine ⟨hf, fun hd => ?_⟩
  rw [hd] at hk
  obtain ⟨⟨hlen, -⟩, -⟩ := hk
  omega

/-- Inside a scan no more bytes are emitted than consumed. -/
theorem o_le_i_of_scanFits {s : State} (h : ScanFits s) : s.o ≤ s.i := by
  obtain ⟨-, -, -, ho, -⟩ := h
  calc s.o = (emitted s).length := ho
    _ ≤ ((scanRegion s).take s.i).length := (scan_length_bounds _).1
    _ ≤ s.i := List.length_take_le _ _

/-- Settles O56: in a good state the scan step emits the symbol at the front of the rest of the region, of one or two wire bytes. -/
theorem scanStepAdvances : Obligations.ScanStepAdvances := by
  intro s hinv hp hi
  have hfit := hinv.scanFits hp
  have hoi := o_le_i_of_scanFits hfit
  obtain ⟨b, n, hfront, hend, hstep⟩ := step_scan_symbol hp (regionHeld_of_scanFits hinv.frame hfit) hi hoi
  obtain ⟨hn, -⟩ := frontSymbol_length hfront
  exact ⟨_, hstep, hn.imp (congrArg (s.i + ·)) (congrArg (s.i + ·)), rfl, hend, rfl,
    show s.o + 1 ≤ s.i + n by omega⟩

/-! ### What a completed command leaves (R42) -/

theorem Inv.resultFits {s : State} (h : Inv s) (hd : s.status = .done) : ResultFits s := by
  have hf := h.session
  rw [SessionFits, hd] at hf
  exact hf

/-- The cells of a byte string's memory that hold a value are those below its length. -/
theorem Memory.isSome_read_ofBytes (bs : List Byte) (a : Nat) :
    (Memory.read (Memory.ofBytes bs) a).isSome = true ↔ a < bs.length := by simp

/-- `DECODE`'s output with its start byte `b0` and its terminator `e` written out (spec/43_decode.md R159). -/
theorem decodedOutput_eq {s : State} {b0 e : Byte} (hb : (frameBytes s).take 1 = [b0])
    (he : (frameBytes s).drop (s.len - 1) = [e]) (hc : s.crc = crcRun s.cfg (scan (payloadBytes s))) :
    decodedOutput s = b0 :: (scan (payloadBytes s) ++ [hiByte s.crc, loByte s.crc, e]) := by
  simp [decodedOutput, hb, he, hc]

/-- The decoded payload fits between the start byte and the three last bytes of the frame. -/
theorem scan_payload_length {s : State} (hf : FrameHeld s) (hb : BoundsFit s) :
    (scan (payloadBytes s)).length + 4 ≤ s.len := by
  obtain ⟨hlen, hesc, -⟩ := hb
  have h1 := (scan_length_bounds (payloadBytes s)).1
  rw [payloadBytes_length hf (by omega)] at h1
  omega

/-- The cells of `OUT` after `DECODE`, read one by one: start byte, checksum and terminator, and the payload between. -/
theorem read_decoded {m : Memory} {p : List Byte} {b0 x y e : Byte} (hm : m = Memory.ofBytes (b0 :: (p ++ [x, y, e]))) :
    Memory.read m 0 = some b0 ∧ Memory.read m (p.length + 1) = some x ∧ Memory.read m (p.length + 2) = some y ∧
      Memory.read m (p.length + 3) = some e ∧ Memory.readBytes m 1 p.length = some p := by
  subst hm
  refine ⟨by simp, by simp, by simp, by simp, Memory.readBytes_eq fun k hk => ?_⟩
  rw [Memory.read_ofBytes, Nat.add_comm, List.getElem?_cons_succ, List.getElem?_append_left hk]

/-- Settles O52: the invariant gives `OUT` as the memory of one byte string, which is then read cell by cell. -/
theorem completedSessionLaws : Obligations.CompletedSessionLaws := by
  intro s hinv hd
  have hfit := hinv.resultFits hd
  unfold ResultFits at hfit
  cases hk : s.kind with
  | decode =>
    rw [hk] at hfit
    obtain ⟨hbounds, hmode, hcrc, hvalid, hol, hout⟩ := hfit
    have hlen := scan_payload_length hinv.frame hbounds
    obtain ⟨b0, e, hb0, he, hb0', he'⟩ := held_ends hinv.frame (by omega)
    rw [decodedOutput_eq hb0' he' hcrc] at hout
    obtain ⟨h0, hx, hy, hz, hp⟩ := read_decoded hout
    refine ⟨by omega, fun a => ?_, fun _ => ?_, ScanKind.noConfusion⟩
    · rw [hout, Memory.isSome_read_ofBytes, hol]
      simp only [List.length_cons, List.length_append, List.length_nil, Nat.add_assoc]
    · rw [hol, h0, hb0, he]
      exact ⟨hmode, by rw [hvalid, beq_iff_eq], by omega, rfl, hz, hx, hy, _, hp, hcrc⟩
  | full =>
    rw [hk] at hfit
    obtain ⟨-, hcrc, hol, hout⟩ := hfit
    have hle := (scan_length_bounds (frameBytes s)).1
    have hlen := hinv.frame.2
    refine ⟨by omega, fun a => ?_, ScanKind.noConfusion, fun _ => hcrc⟩
    rw [hout, Memory.isSome_read_ofBytes, hol]

end Sys2Proof.Machine

/-! PROOFS. Accesses to `IN` and `OUT` (spec/20_memory.md R54, R55, R60): where a symbol stops, what a step in `P_SCAN` fetches and runs, and that a good state meets no model fault. -/

namespace Sys2Proof.Machine

/-! ### Symbols -/

/-- Settles O16: a symbol is a scan step, and a scan step writes `OUT` below the capacity or stops. -/
theorem symbolBeyondCapacityStops : Obligations.SymbolBeyondCapacityStops := by
  intro i d s hd hcap
  rw [exec_symbol s hd, symbolStep_eq, if_neg (Nat.not_lt.2 hcap), toOut_error]

/-- The bytes a symbol is decoded from: the one at the read index, and the next where two remain (R75). -/
theorem fetchBytes_eq {s : State} {b0 : Byte} {more : List Byte}
    (h0 : Memory.read s.inMem (scanBase s + s.i) = some b0)
    (hm : if 2 ≤ scanLen s - s.i then ∃ b1, Memory.read s.inMem (scanBase s + s.i + 1) = some b1 ∧ more = [b1]
      else more = []) :
    fetchBytes s = .ok (b0, more) := by
  rw [fetchBytes, readIn_ok h0, except_ok_bind]
  split at hm
  next h2 =>
    obtain ⟨b1, h1, rfl⟩ := hm
    rw [if_pos h2, readIn_ok h1]; rfl
  next h2 => rw [if_neg h2, hm]; rfl

/-- The symbol fetched is the one the decoder reads from the fetched bytes (R54, R75). -/
theorem fetchSymbol_eq_of_decode {s : State} {b0 : Byte} {more left : List Byte} {i : Instr}
    (hb : fetchBytes s = .ok (b0, more)) (hd : decode .wire (b0 :: more) = .ok (i, left)) : fetchSymbol s = .ok i := by
  have hfront : decodeFront .wire b0 more = (i, left) := Except.ok.inj hd
  rw [fetchSymbol, hb, except_ok_bind]
  exact congrArg (fun p => Except.ok p.1) hfront

/-- In `P_SCAN` with a byte left, the step runs the symbol fetched and chooses the next phase (R160). -/
theorem step_scan_fetched {s : State} {i : Instr} (hp : s.phase = .scan) (hi : s.i < scanLen s)
    (hf : fetchSymbol s = .ok i) : step s = andThen (exec i s) afterSymbol := by
  simp [step, hp, hi, hf]

/-- Settles O46: the step runs the symbol it fetches, which is the one decoded from the bytes at the read index. -/
theorem stepRunsDecodedSymbol : Obligations.StepRunsDecodedSymbol := by
  intro s b0 more left i hp hi h0 hm hd
  have hstep := step_scan_fetched hp hi (fetchSymbol_eq_of_decode (fetchBytes_eq h0 hm) hd)
  refine ⟨fun t ht => ?_, fun f hf => ?_⟩
  · rw [hstep, ht]; rfl
  · rw [hstep, hf]; rfl

/-! ### No model fault with no command in progress -/

theorem ne_fault_of_answers {o : Out} (h : ∃ t, o = .next t) (f : Fault) : o ≠ .fault f := by
  obtain ⟨t, rfl⟩ := h
  simp

/-- `DECODE` after its admission answers a state from every held frame of at least five bytes: CSX finds its bytes, and the output is no longer than the frame. -/
theorem decodeRun_answers {s : State} (hf : FrameHeld s) (hs : s.status ≠ .fault) (h5 : minLen ≤ s.len) :
    ∃ t, decodeRun s = .ok t := by
  obtain ⟨a, b, c, d, hc⟩ := hf.csxBytes h5
  by_cases hl : (fieldOf a b c d).escLen.toNat + 2 ≤ s.len
  · obtain ⟨b0, e, hb, he, -⟩ := held_ends hf (le_trans (by decide) h5)
    exact ⟨_, decodeRun_ok hf hs hc hl hb he⟩
  · exact ⟨_, decodeRun_raise hc (Nat.not_le.1 hl)⟩

/-- `DECODE` answers a state from every held frame: it is ignored, it raises, or it runs. -/
theorem exec_decode_answers {s : State} (hf : FrameHeld s) : ∃ t, exec .decode s = .next t := by
  simp only [exec, execDecode, unlessFault]
  split_ifs with hfault hs h5
  · exact ⟨_, rfl⟩
  · exact ⟨_, rfl⟩
  · exact ⟨_, rfl⟩
  · cases s.grain with
    | stepwise => exact ⟨_, rfl⟩
    | atomic =>
      obtain ⟨t, ht⟩ := decodeRun_answers hf hfault (Nat.not_lt.1 h5)
      exact ⟨t, toOut_eq_next.2 ht⟩

/-- `FULL_DECODE` answers a state from every held frame. -/
theorem exec_fullDecode_answers {s : State} (hf : FrameHeld s) : ∃ t, exec .fullDecode s = .next t := by
  simp only [exec, execFullDecode, unlessFault]
  split_ifs
  · exact ⟨_, rfl⟩
  · exact ⟨_, rfl⟩
  · cases s.grain with
    | stepwise => exact ⟨_, rfl⟩
    | atomic => exact ⟨_, toOut_eq_next.2 (fullRun_eq hf)⟩

/-- Every command answers a state from a held frame. -/
theorem exec_commandOf_answers {s : State} (hf : FrameHeld s) (code : BitVec 2) :
    ∃ t, exec (commandOf code) s = .next t := by
  unfold commandOf
  split_ifs
  · exact ⟨s, rfl⟩
  · exact exec_decode_answers hf
  · exact exec_fullDecode_answers hf
  · simp only [exec, execReservedCmd, unlessFault]
    split <;> exact ⟨_, rfl⟩

/-- The row the decoder gives a byte is the lookup of that byte (R104). -/
theorem exec_encodeLookupOf (b : Byte) (s : State) : exec (encodeLookupOf b) s = encodeLookup b s := by
  unfold encodeLookupOf
  split_ifs <;> subst_vars <;> rfl

/-- Every encode lookup answers. -/
theorem exec_encodeLookupOf_answers (b : Byte) (s : State) : ∃ t, exec (encodeLookupOf b) s = .next t := by
  rw [exec_encodeLookupOf, encodeLookup]
  split <;> exact ⟨_, rfl⟩

/-- `LOAD` answers a state: a new session, or a fault entry. -/
theorem exec_load_answers (frame : List Byte) (s : State) : ∃ t, exec (.load frame) s = .next t := by
  simp only [exec, execLoad]
  split <;> exact ⟨_, rfl⟩

/-- A read-out answers or is refused. -/
theorem exec_readOut_ne_fault (sel : ReadSel) (s : State) (f : Fault) : exec (.readOut sel) s ≠ .fault f := by
  simp only [exec, execReadOut]
  split <;> simp

/-- What a request of the host stands for meets no model fault where the frame is held. -/
theorem exec_requestInstr_ne_fault {s : State} (hf : FrameHeld s) {r : Request} {i : Instr}
    (hi : requestInstr r = .ok i) (f : Fault) : exec i s ≠ .fault f := by
  cases r with
  | load frame => cases hi; exact ne_fault_of_answers (exec_load_answers frame s) f
  | read sel => cases hi; exact exec_readOut_ne_fault sel s f
  | encode b => cases hi; exact ne_fault_of_answers (exec_encodeLookupOf_answers b s) f
  | write n v =>
    cases n with
    | zero => cases hi; exact ne_fault_of_answers (exec_commandOf_answers hf _) f
    | succ n =>
      rw [requestInstr_write (Nat.succ_pos n)] at hi
      split at hi <;> cases hi

/-- With no command in progress a step meets no model fault where the frame is held. -/
theorem step_admission_ne_fault {s : State} (hp : s.phase = .admission) (hf : FrameHeld s) (f : Fault) :
    step s ≠ .fault f := by
  cases hr : s.requests with
  | nil => rw [step_idle hp hr]; simp
  | cons r rest =>
    cases hi : requestInstr r with
    | error e => rw [step_refused hp hr hi]; simp
    | ok i => rw [step_request hp hr hi]; exact exec_requestInstr_ne_fault (s := { s with requests := rest }) hf hi f

/-! ### No model fault while a command is in progress -/

/-- In `P_CSX` a held frame of at least five bytes gives CSX its bytes and the scan its start byte. -/
theorem step_csx_answers {s : State} (hp : s.phase = .csx) (hf : FrameHeld s) (hs : s.status = .busy)
    (h5 : minLen ≤ s.len) : ∃ t, step s = .next t := by
  obtain ⟨a, b, c, d, hc⟩ := hf.csxBytes h5
  have hstep : step s = afterCsx (storePayLen (storeChecksum (fieldOf a b c d) s)) := by
    rw [step_csx hp, exec, execCsx, csx_eq hc]; rfl
  by_cases hl : (fieldOf a b c d).escLen.toNat + 2 ≤ s.len
  · have h1 : 1 ≤ s.len := le_trans (by decide) h5
    obtain ⟨b0, -, hb, -⟩ := held_ends hf h1
    have hnf : (extracted (fieldOf a b c d) s).status ≠ .fault := by
      rw [show (extracted (fieldOf a b c d) s).status = .busy from hs]; decide
    rw [hstep, storePayLen_ok hl, afterCsx, if_neg hnf,
      beginDecode_eq (s := extracted (fieldOf a b c d) s) hb h1]
    exact ⟨_, rfl⟩
  · rw [hstep, storePayLen_raise (Nat.not_le.1 hl), afterCsx, if_pos (raise_status _ _)]
    exact ⟨_, rfl⟩

/-- In `P_SCAN` the region stands in `IN`, and no more bytes are emitted than consumed. -/
theorem step_scan_answers {s : State} (hp : s.phase = .scan) (hf : FrameHeld s) (hfit : ScanFits s) :
    ∃ t, step s = .next t := by
  by_cases hi : s.i < scanLen s
  · obtain ⟨b, n, -, -, hstep⟩ :=
      step_scan_symbol hp (regionHeld_of_scanFits hf hfit) hi (o_le_i_of_scanFits hfit)
    exact ⟨_, hstep⟩
  · exact ⟨_, step_scan_over hp hi⟩

/-- At the end of the scan of `DECODE` three more cells fit into `OUT` (R156). -/
theorem o_add_four_le_of_scanFits {s : State} (hfit : ScanFits s) (hk : s.kind = .decode) (hend : s.i = scanLen s) :
    s.o + 4 ≤ s.len := by
  have hoi := o_le_i_of_scanFits hfit
  obtain ⟨-, -, -, -, hd⟩ := hfit
  rw [hk] at hd
  obtain ⟨⟨hlen, hesc, -⟩, -⟩ := hd
  have hpay : scanLen s = s.payLen := by rw [scanLen, hk]
  omega

/-- In `P_ASM` the checksum and the terminator fit into `OUT`. -/
theorem step_asm_answers {s : State} (hp : s.phase = .asm) (hf : FrameHeld s) (hfit : ScanFits s)
    (hend : s.i = scanLen s) : ∃ t, step s = .next t := by
  rw [step_asm hp, assemble]
  cases hk : s.kind with
  | full => exact ⟨_, rfl⟩
  | decode =>
    have ho := o_add_four_le_of_scanFits hfit hk hend
    obtain ⟨-, e, -, he, -⟩ := held_ends hf (by omega)
    exact ⟨_, toOut_eq_next.2 (assembleDecode_eq he (by omega))⟩

/-- In a good state a command in progress always goes on. -/
theorem step_busy_answers {s : State} (hinv : Inv s) (hp : s.phase ≠ .admission) : ∃ t, step s = .next t := by
  have hbusy := hinv.busy hp
  have hsession := hinv.session
  rw [SessionFits, hbusy] at hsession
  cases hph : s.phase with
  | admission => exact absurd hph hp
  | csx => rw [hph] at hsession; exact step_csx_answers hph hinv.frame hbusy hsession.2
  | scan => rw [hph] at hsession; exact step_scan_answers hph hinv.frame hsession
  | asm => rw [hph] at hsession; exact step_asm_answers hph hinv.frame hsession.1 hsession.2

/-- Settles O51, by the phase: a request's instruction stays within the held frame, and a command in progress always goes on. -/
theorem goodStateNeverStops : Obligations.GoodStateNeverStops := by
  intro s f hinv
  by_cases hp : s.phase = .admission
  · exact step_admission_ne_fault hp hinv.frame f
  · exact ne_fault_of_answers (step_busy_answers hinv hp) f

end Sys2Proof.Machine

/-! PROOFS. The three decoders, each said once for one byte or one window (spec/30_encoding.md R73 to R83; spec/40_escape_table.md R104), and the round trips of decoder and encoder that follow. -/

namespace Sys2Proof.Machine

/-! ### The scanned region (R74, R75) -/

/-- A window that matches is one symbol, and the symbol's encoding is the window (R74, R75). -/
theorem symbolOf_matched {b0 b1 : Byte} (h : (esc b0 b1).2 = true) (rest : List Byte) :
    ∃ i, symbolOf b0 (b1 :: rest) = (i, rest) ∧ symbolByte i = some (esc b0 b1).1 ∧ symbolLength i = 2 ∧
      i.wellFormed = true ∧ encode i = some (.wire, [b0, b1]) := by
  rcases esc_matched_cases h with ⟨rfl, rfl, hb⟩ | ⟨rfl, rfl, hb⟩ | ⟨rfl, rfl, hb⟩ | ⟨rfl, rfl, hb⟩ <;>
    exact ⟨_, rfl, hb ▸ rfl, rfl, rfl, rfl⟩

/-- Where the window does not match, its first byte is a literal (R75). -/
theorem symbolOf_unmatched {b0 b1 : Byte} (h : (esc b0 b1).2 = false) (rest : List Byte) :
    symbolOf b0 (b1 :: rest) = (.lit1 b0, b1 :: rest) := by
  simp [symbolOf, escSymbol_of_unmatched h]

/-- A byte that begins no escape sequence with what follows it is a literal (R75). -/
theorem symbolOf_literal {b : Byte} {rest : List Byte}
    (h : ∀ b1 rest', rest = b1 :: rest' → (esc b b1).2 = false) : symbolOf b rest = (.lit1 b, rest) := by
  cases rest with
  | nil => rfl
  | cons b1 rest => exact symbolOf_unmatched (h b1 rest rfl) rest

/-- The symbol at the front of a region is well formed, and its encoding is the bytes the decoder took (R73, R75). -/
theorem encode_symbolOf {b : Byte} {w rest : List Byte} {i : Instr} (h : symbolOf b w = (i, rest)) :
    i.wellFormed = true ∧ ∃ used, encode i = some (.wire, used) ∧ b :: w = used ++ rest := by
  rcases w with _ | ⟨b1, w⟩
  · cases h; exact ⟨rfl, [b], rfl, rfl⟩
  · cases hm : (esc b b1).2 with
    | true =>
      obtain ⟨j, hj, -, -, hwf, he⟩ := symbolOf_matched hm w
      cases hj.symm.trans h
      exact ⟨hwf, [b, b1], he, rfl⟩
    | false =>
      cases (symbolOf_unmatched hm w).symm.trans h
      exact ⟨rfl, [b], rfl, rfl⟩

/-! ### The encode lookup (R104) -/

/-- A byte without an escape sequence is looked up by the catch-all row (R83). -/
theorem encodeLookupOf_not_escapable {b : Byte} (h : isEscapable b = false) : encodeLookupOf b = .encNone b := by
  simp only [isEscapable, Bool.or_eq_false_iff, beq_eq_false_iff_ne] at h
  obtain ⟨⟨⟨hA, hB⟩, hD⟩, hE⟩ := h
  rw [encodeLookupOf, if_neg hB, if_neg hA, if_neg hD, if_neg hE]

/-- The lookup of a byte is well formed, and its encoding is the byte (R104). -/
theorem encode_encodeLookupOf (b : Byte) :
    (encodeLookupOf b).wellFormed = true ∧ encode (encodeLookupOf b) = some (.encodeLookup, [b]) := by
  cases hb : isEscapable b with
  | true =>
    simp only [isEscapable, Bool.or_eq_true, beq_iff_eq] at hb
    rcases hb with ((rfl | rfl) | rfl) | rfl <;> exact ⟨rfl, rfl⟩
  | false =>
    rw [encodeLookupOf_not_escapable hb]
    exact ⟨by rw [Instr.wellFormed, hb]; rfl, rfl⟩

/-! ### The command port (R80, R192) -/

/-- Each code has a row, and the row's encoding is the code. -/
theorem encode_commandOf (code : BitVec 2) :
    (commandOf code).wellFormed = true ∧ encode (commandOf code) = some (.command, [code.setWidth 8]) := by
  revert code; decide

/-- The code of a byte written to `CMD` is its low two bits (R192). -/
theorem setWidth_code (b : Byte) : (b.setWidth 2).setWidth 8 = b &&& 0b11 := by
  revert b; decide

/-! ### The round trips -/

/-- Settles O2, by the instruction: each row with a full mask reads its own bits; the two catch-all rows, a literal and the lookup of a byte without an escape sequence, read a byte no other row takes (R75, R83). -/
theorem decodeOfEncodeIsIdentity : Obligations.DecodeOfEncodeIsIdentity := by
  intro i c bs rest hwf he hlit
  cases i with
  | nop | decode | fullDecode | reservedCmd | esc5B | esc5A | esc5D | esc5E | enc5B | enc5A | enc5D | enc5E =>
    cases he; rfl
  | lit1 b =>
    cases he
    exact congrArg Except.ok (symbolOf_literal fun b1 rest' => hlit b b1 rest' rfl)
  | encNone b =>
    cases he
    have hb : isEscapable b = false := by simpa [Instr.wellFormed] using hwf
    exact congrArg (fun i => Except.ok (i, rest)) (encodeLookupOf_not_escapable hb)
  | load _ | crcUpd _ | csx | readOut _ => cases he

/-- Settles O3, by the context: the encoding of what each decoder gives. -/
theorem encodeOfDecodeIsIdentity : Obligations.EncodeOfDecodeIsIdentity := by
  intro c bs rest i hd
  cases bs with
  | nil => cases hd
  | cons b w =>
    cases c with
    | command =>
      cases hd
      obtain ⟨hwf, he⟩ := encode_commandOf (b.setWidth 2)
      exact ⟨hwf, b, rfl, by rw [he, setWidth_code]⟩
    | wire => exact encode_symbolOf (Except.ok.inj hd)
    | encodeLookup =>
      cases hd
      obtain ⟨hwf, he⟩ := encode_encodeLookupOf b
      exact ⟨hwf, [b], he, rfl⟩

/-- Settles O4, by whether the window matches. -/
theorem decodedSymbolIsEscapeLookup : Obligations.DecodedSymbolIsEscapeLookup := by
  refine ⟨fun b0 b1 rest => ?_, fun _ => rfl⟩
  cases hm : (esc b0 b1).2 with
  | true =>
    obtain ⟨i, hi, hb, hl, -, -⟩ := symbolOf_matched hm rest
    exact ⟨i, congrArg Except.ok hi, hb, hl⟩
  | false =>
    exact ⟨.lit1 b0, congrArg Except.ok (symbolOf_unmatched hm rest), congrArg some (esc_unmatched hm).symm, rfl⟩

/-- Settles O1: each word is closed, and the decoder computes its row. -/
theorem tableWordsDecode : Obligations.TableWordsDecode := by
  unfold Obligations.TableWordsDecode
  decide

end Sys2Proof.Machine

/-! PROOFS. The Escape Table and `SCAN` (spec/40_escape_table.md R101, R104, R105). -/

namespace Sys2Proof.Machine

/-! ### `SCAN` (R105 items 1 and 5) -/

/-- Settles O7: the law of a stuffed prefix, with nothing behind it. -/
theorem scanOfStuffIsIdentity : Obligations.ScanOfStuffIsIdentity := by
  intro p
  simpa using scan_stuff_append p []

/-- A scan that keeps the length has unescaped nothing: each matched window shortens, and no later byte makes up for it. -/
theorem scan_eq_self_of_length_eq {w : List Byte} (hlen : (scan w).length = w.length) : scan w = w := by
  induction w using scan.induct with
  | case1 => rfl
  | case2 => rfl
  | case3 b0 b1 w h ih =>
    have hbound := (scan_length_bounds w).1
    rw [scan_matched h] at hlen
    simp only [List.length_cons] at hlen
    omega
  | case4 b0 b1 w h ih =>
    have hstep := scan_unmatched (Bool.eq_false_iff.2 h) w
    rw [hstep] at hlen ⊢
    rw [ih (Nat.succ.inj hlen)]

/-- Settles O8: the bound, and the equality case by the recursion of `SCAN`. -/
theorem scanKeepsLengthOnlyWithoutEscapes : Obligations.ScanKeepsLengthOnlyWithoutEscapes :=
  fun w => ⟨(scan_length_bounds w).1, scan_eq_self_of_length_eq, congrArg List.length⟩

/-! ### The rows, in both directions (R101, R104) -/

/-- Settles O5: the four rows compute, and a window that matches is one of them. -/
theorem escapeTableContract : Obligations.EscapeTableContract := by
  refine ⟨rfl, rfl, rfl, rfl, fun b0 b1 hw => ?_⟩
  cases hm : (esc b0 b1).2 with
  | false => exact Prod.ext (esc_unmatched hm) hm
  | true =>
    rcases esc_matched_cases hm with ⟨rfl, rfl, -⟩ | ⟨rfl, rfl, -⟩ | ⟨rfl, rfl, -⟩ | ⟨rfl, rfl, -⟩ <;>
      exact absurd (by decide) hw

/-- What `ESC` decodes, `ESC_ENC` gives back (R105 item 3). -/
theorem escEnc_of_esc {b b0 b1 : Byte} (h : esc b0 b1 = (b, true)) : escEnc b = some (b0, b1) := by
  obtain rfl : (esc b0 b1).1 = b := congrArg Prod.fst h
  rcases esc_matched_cases (congrArg Prod.snd h) with
    ⟨rfl, rfl, hb⟩ | ⟨rfl, rfl, hb⟩ | ⟨rfl, rfl, hb⟩ | ⟨rfl, rfl, hb⟩ <;> rw [hb] <;> rfl

/-- Settles O6: one direction each. -/
theorem encodeLookupInvertsEscape : Obligations.EncodeLookupInvertsEscape :=
  fun _ _ _ => ⟨esc_of_escEnc, escEnc_of_esc⟩

/-- A byte without an escape sequence is answered as such, and nothing else changes. -/
theorem encodeLookup_of_none {b : Byte} (h : escEnc b = none) (s : State) :
    encodeLookup b s = .next (answer .noEscape s) := by
  rw [encodeLookup, h]

/-- Settles O9: the four rows compute, and a well-formed catch-all lookup is of a byte without an escape sequence. -/
theorem encodeLookupsAnswerTheirRow : Obligations.EncodeLookupsAnswerTheirRow := by
  refine fun s => ⟨rfl, rfl, rfl, rfl, fun b hwf => ?_⟩
  have hb : isEscapable b = false := by simpa [Instr.wellFormed] using hwf
  have hnone : escEnc b = none := by simpa [hb] using escEnc_isSome b
  exact encodeLookup_of_none hnone s

end Sys2Proof.Machine

/-! PROOFS. The CRC Engine (spec/41_crc_engine.md R115 to R122). -/

namespace Sys2Proof.Machine

/-! ### One update (R115, R116) -/

/-- The 16-bit index of R115 is the 8-bit index of the model, so it is below 256 without a mask (R116 item 2). -/
theorem crcIndex_eq_setWidth (c : Half) (b : Byte) :
    (c >>> 8) ^^^ b.setWidth 16 = (hiByte c ^^^ b).setWidth 16 := by
  have hhi : c >>> 8 = (hiByte c).setWidth 16 := by
    apply BitVec.eq_of_toNat_eq
    rw [BitVec.toNat_ushiftRight, BitVec.toNat_setWidth_of_le (by decide), hiByte_toNat, Nat.shiftRight_eq_div_pow]
  rw [hhi, BitVec.setWidth_xor]

theorem crcTable_getElem? (cfg : Config) (k : Byte) :
    cfg.crcTable.val[(k.setWidth 16).toNat]? = some (tableEntry cfg k) := by
  rw [BitVec.toNat_setWidth_of_le (by decide)]
  exact List.getElem?_eq_getElem _

/-- Settles O10: the entry at the index as the rule computes it is the model's. -/
theorem crcUpdateFormula : Obligations.CrcUpdateFormula := fun s b =>
  ⟨tableEntry s.cfg (hiByte s.crc ^^^ b), by rw [crcIndex_eq_setWidth, crcTable_getElem?], rfl⟩

/-- The truncating shift keeps the low byte, above eight zero bits (R116 item 1). -/
theorem shiftLeft_eight_eq_joinBytes (c : Half) : c <<< 8 = joinBytes (loByte c) 0 := by
  apply BitVec.eq_of_toNat_eq
  rw [BitVec.toNat_shiftLeft, joinBytes_toNat, loByte_toNat, Nat.shiftLeft_eq]
  change c.toNat * 256 % 65536 = c.toNat % 256 * 256 + 0
  omega

/-- Settles O11: the shifted term is the low byte over zeros. -/
theorem crcSplitsIntoShiftAndIndex : Obligations.CrcSplitsIntoShiftAndIndex := by
  intro cfg c b
  rw [crcUpd, shiftLeft_eight_eq_joinBytes]

/-! ### The default table (R118, R122) -/

/-- The transcribed rows, in order, are what R118's loop generates: a closed comparison of 256 entries. -/
theorem defaultCrcEntries_eq_ofFn :
    defaultCrcEntries = List.ofFn fun k : Fin 256 => crcTableEntry (BitVec.ofFin k) := by
  decide +kernel

theorem tableEntry_defaultConfig (k : Byte) : tableEntry defaultConfig k = crcTableEntry k :=
  (List.getElem_of_eq defaultCrcEntries_eq_ofFn _).trans (List.getElem_ofFn _)

/-- Settles O12: the entries by the loop's table, and the check value computes. -/
theorem defaultTableIsPolynomial1021 : Obligations.DefaultTableIsPolynomial1021 :=
  ⟨tableEntry_defaultConfig, by decide⟩

end Sys2Proof.Machine

/-! PROOFS. Checksum extraction and payload bounds (spec/42_checksum_extraction.md R130 to R139), alone and inside `DECODE`. -/

namespace Sys2Proof.Machine

/-! ### What CSX answers (R130, R135) -/

theorem exec_csx (s : State) : exec .csx s = toOut (csx s) := rfl

/-- Where the payload length is not negative, CSX extracts. -/
theorem exec_csx_ok {s : State} {a b c d : Byte} (h : CsxBytes s a b c d)
    (hl : (fieldOf a b c d).escLen.toNat + 2 ≤ s.len) :
    exec .csx s = .next (extracted (fieldOf a b c d) s) := by
  rw [exec_csx, csx_eq h, storePayLen_ok hl, toOut_ok]

/-- Where the payload length would be negative, CSX raises after it has stored the checksum field. -/
theorem exec_csx_raise {s : State} {a b c d : Byte} (h : CsxBytes s a b c d)
    (hl : s.len < (fieldOf a b c d).escLen.toNat + 2) :
    exec .csx s = .next (raise (.frameTooShort s.len) (storeChecksum (fieldOf a b c d) s)) := by
  rw [exec_csx, csx_eq h, storePayLen_raise hl, toOut_ok]

/-- Settles O20: the length is checked before anything is read. -/
theorem extractionBelowPreconditionStops : Obligations.ExtractionBelowPreconditionStops := by
  intro s h5
  have hlen : s.len < minLen := h5
  rw [exec_csx, csx, if_pos hlen, toOut_error]

/-! ### The three forms of the checksum field (R131 to R133) -/

theorem fieldOf_raw {c d : Byte} (h : (esc c d).2 = false) (a b : Byte) : fieldOf a b c d = ⟨c, d, 2⟩ := by
  simp [fieldOf, h]

theorem fieldOf_lowEscaped {a b c d : Byte} (h : (esc c d).2 = true) (h' : (esc a b).2 = false) :
    fieldOf a b c d = ⟨b, (esc c d).1, 3⟩ := by
  simp [fieldOf, h, h']

theorem fieldOf_bothEscaped {a b c d : Byte} (h : (esc c d).2 = true) (h' : (esc a b).2 = true) :
    fieldOf a b c d = ⟨(esc a b).1, (esc c d).1, 4⟩ := by
  simp [fieldOf, h, h']

/-- Settles O17, by which windows match: each form fixes the field, and the field the next state. -/
theorem checksumExtraction : Obligations.ChecksumExtraction := by
  intro s a b c d h5 ha hb hc hd
  have hx : CsxBytes s a b c d := ⟨h5, ha, hb, hc, hd⟩
  refine ⟨fun hcd => ?_, fun hcd hab => ?_, fun hcd hab h6 => ?_⟩
  · have hf := fieldOf_raw hcd a b
    rw [exec_csx_ok hx (by rw [hf]; show 4 ≤ s.len; omega), hf]
    rfl
  · have hf := fieldOf_lowEscaped hcd hab
    rw [exec_csx_ok hx (by rw [hf]; exact h5), hf]
    rfl
  · have hf := fieldOf_bothEscaped hcd hab
    rw [exec_csx_ok hx (by rw [hf]; exact h6), hf]
    rfl

/-! ### Five bytes, doubly escaped (R135, decision D12) -/

/-- Two matched windows take four bytes, so that a frame of five has no room for a payload. -/
theorem payLen_negative_of_five {s : State} {a b c d : Byte} (h5 : s.len = 5) (hab : (esc a b).2 = true)
    (hcd : (esc c d).2 = true) : s.len < (fieldOf a b c d).escLen.toNat + 2 := by
  rw [fieldOf_bothEscaped hcd hab, h5]
  exact Nat.lt_succ_self 5

/-- Settles O18: the raise writes `STATE` and `FAULT_CODE` of what the stored checksum field leaves. -/
theorem extractionOfDoublyEscapedFiveBytesFaults : Obligations.ExtractionOfDoublyEscapedFiveBytesFaults := by
  intro s a b c d h5 hs ha hb hc hd hab hcd
  have hx : CsxBytes s a b c d := by constructor <;> simp [h5, minLen, ha, hb, hc, hd]
  exact ⟨_, exec_csx_raise hx (payLen_negative_of_five h5 hab hcd), raise_status _ _,
    raise_faultCode (s := storeChecksum _ s) hs _, raise_payLen _ _, raise_outMem _ _, raise_inMem _ _, raise_len _ _⟩

/-! ### CSX sees the bytes before the terminator only (R139 item 1) -/

@[simp] theorem storePayLen_hi (s : State) : (storePayLen s).hi = s.hi := by
  unfold storePayLen; split <;> simp
@[simp] theorem storePayLen_lo (s : State) : (storePayLen s).lo = s.lo := by
  unfold storePayLen; split <;> simp
@[simp] theorem storePayLen_parsed (s : State) : (storePayLen s).parsed = s.parsed := by
  unfold storePayLen; split <;> simp
@[simp] theorem storePayLen_escLen (s : State) : (storePayLen s).escLen = s.escLen := by
  unfold storePayLen; split <;> simp

/-- The first two of the four bytes count only where the last two match (R130). -/
theorem fieldOf_congr {a b a' b' c d : Byte} (h : (esc c d).2 = true → a = a' ∧ b = b') :
    fieldOf a b c d = fieldOf a' b' c d := by
  cases hcd : (esc c d).2 with
  | true => obtain ⟨rfl, rfl⟩ := h hcd; rfl
  | false => rw [fieldOf_raw hcd, fieldOf_raw hcd]

/-- From six bytes on the payload length is not negative, whatever the form of the field. -/
theorem storePayLen_payLen {s : State} (a b c d : Byte) (h6 : 6 ≤ s.len) :
    (storePayLen (storeChecksum (fieldOf a b c d) s)).payLen = s.len - (fieldOf a b c d).escLen.toNat - 2 := by
  have hesc := (fieldOf_escLen a b c d).2
  rw [storePayLen_ok (by omega)]
  rfl

/-- Settles O19: the two blocks read the same bytes, so they store the same field. -/
theorem extractionSeesOnlyLastFiveBytes : Obligations.ExtractionSeesOnlyLastFiveBytes := by
  intro s s' t t' hlen hread ht ht'
  obtain ⟨a, b, c, d, -, hc, hd, hab, rfl⟩ := exec_csx_next ht
  obtain ⟨a', b', c', d', -, hc', hd', hab', rfl⟩ := exec_csx_next ht'
  have agree {k : Nat} {x y : Byte} (h2 : 2 ≤ k) (hk : k ≤ 5) (hx : Memory.read s.inMem (s.len - k) = some x)
      (hy : Memory.read s'.inMem (s'.len - k) = some y) : x = y :=
    Option.some.inj (hx.symm.trans ((hread k h2 hk).trans hy))
  obtain rfl := agree (by decide) (by decide) hc hc'
  obtain rfl := agree (by decide) (by decide) hd hd'
  have hf : fieldOf a b c d = fieldOf a' b' c d := fieldOf_congr fun hm =>
    ⟨agree (by decide) (by decide) (hab hm).1 (hab' hm).1, agree (by decide) (by decide) (hab hm).2 (hab' hm).2⟩
  refine ⟨by simp [hf], by simp [hf], by simp [hf], by simp [hf], fun h6 => ?_⟩
  rw [storePayLen_payLen a b c d h6, storePayLen_payLen a' b' c d (hlen ▸ h6), hf, hlen]

/-! ### `DECODE` of a loaded frame, by its checksum field -/

/-- The four bytes before the terminator of a loaded frame are those CSX may look at. -/
theorem csxBytes_of_loaded {s : State} {w : List Byte} {a b c d e : Byte} (h : Loaded (w ++ [a, b, c, d, e]) s) :
    CsxBytes s a b c d := by
  have hlen : s.len = w.length + 5 := by simp [h.2]
  constructor <;> simp [read_loaded h, hlen, minLen]

/-- Where the payload length would be negative, `DECODE` raises out of CSX (R135, R242). -/
theorem exec_decode_raise {s : State} {a b c d : Byte} (hs : s.status = .fresh) (hg : s.grain = .atomic)
    (hc : CsxBytes s a b c d) (hl : s.len < (fieldOf a b c d).escLen.toNat + 2) :
    exec .decode s = .next (raise (.frameTooShort s.len) (storeChecksum (fieldOf a b c d) s)) := by
  show execDecode s = _
  rw [execDecode_fresh hs hc.long hg, decodeRun_raise hc hl, toOut_ok]

/-- Settles O23: the raise is CSX's, before `DECODE` has written a byte of `OUT`. -/
theorem decodeOfDoublyEscapedFiveBytesFaults : Obligations.DecodeOfDoublyEscapedFiveBytesFaults := by
  intro s a b c d e hs hg hload hab hcd
  have hx : CsxBytes s a b c d := csxBytes_of_loaded (w := []) hload
  have hnf : s.status ≠ .fault := by simp [hs]
  exact ⟨_, exec_decode_raise hs hg hx (payLen_negative_of_five hload.2 hab hcd), raise_status _ _,
    raise_faultCode (s := storeChecksum _ s) hnf _, raise_inMem _ _, raise_len _ _, fun k => by simp⟩

/-- A frame cut as its checksum field says has the payload between the start byte and the field (R135). -/
theorem payloadBytes_extracted {s : State} {start stop : Byte} {payload field : List Byte} {f : ChecksumField}
    (hload : Loaded (start :: payload ++ field ++ [stop]) s) (hf : f.escLen.toNat = field.length) :
    payloadBytes (extracted f s) = payload := by
  have hframe : frameBytes (extracted f s) = start :: payload ++ field ++ [stop] := (loaded_held hload).1
  have hpay : (extracted f s).payLen = payload.length := by
    show s.len - f.escLen.toNat - 2 = _
    simp [hload.2, hf]
    omega
  simp [payloadBytes, hframe, hpay]

/-- `DECODE` of a frame cut as its checksum field says (R159). -/
theorem exec_decode_loaded {s : State} {start stop : Byte} {payload field : List Byte} {a b c d : Byte}
    (hs : s.status = .fresh) (hg : s.grain = .atomic) (hload : Loaded (start :: payload ++ field ++ [stop]) s)
    (hc : CsxBytes s a b c d) (hf : (fieldOf a b c d).escLen.toNat = field.length) :
    exec .decode s = .next (decodeResult start stop (fieldOf a b c d) s) := by
  have hlen : s.len = payload.length + field.length + 2 := by simp [hload.2]; omega
  refine exec_decode_ok hs hg (loaded_held hload).2 hc (by omega) (by simp [read_loaded hload]) ?_
  rw [read_loaded hload, hlen]
  simp

/-! ### High escaped, low raw (R138) -/

/-- The second byte of an escape sequence is no lead byte. -/
theorem second_not_lead {l1 l2 : Byte} (h : (esc l1 l2).2 = true) (b : Byte) : (esc l2 b).2 = false := by
  rcases esc_matched_cases h with ⟨-, rfl, -⟩ | ⟨-, rfl, -⟩ | ⟨-, rfl, -⟩ | ⟨-, rfl, -⟩ <;>
    rw [esc_of_not_lead (by decide) (by decide)]

/-- The lead byte of an escape sequence is no second byte of one. -/
theorem lead_not_second {l1 l2 : Byte} (h : (esc l1 l2).2 = true) (b : Byte) : (esc b l1).2 = false := by
  by_contra hb
  have hl := second_not_lead (Bool.not_eq_false _ ▸ hb) l2
  rw [h] at hl
  cases hl

/-- A last byte that ends no escape sequence is scanned as itself, whatever stands before it. -/
theorem scan_concat {b : Byte} (hb : ∀ b0, (esc b0 b).2 = false) (w : List Byte) :
    scan (w ++ [b]) = scan w ++ [b] := by
  induction w using scan.induct with
  | case1 => rfl
  | case2 c => exact scan_unmatched (hb c) []
  | case3 b0 b1 w hm ih => rw [scan_matched hm, List.cons_append, List.cons_append, scan_matched hm, ih]; rfl
  | case4 b0 b1 w hm ih =>
    have hm : (esc b0 b1).2 = false := Bool.eq_false_iff.2 hm
    rw [scan_unmatched hm, List.cons_append, List.cons_append, scan_unmatched hm, ← List.cons_append, ih]
    rfl

/-- As many bytes as were written are read back from where they were written. -/
theorem Memory.readBytes_written {m : Memory} {a n : Nat} {bs : List Byte} (h : n = bs.length) :
    Memory.readBytes (Memory.writeBytes m a bs) a n = some bs := by
  rw [h, Memory.readBytes_writeBytes]

/-- Settles O28: the second byte of the sequence begins no window, so CSX takes the last two bytes raw and leaves the lead byte at the end of the payload, where it ends no window either. -/
theorem highEscapedLowRawIsMisread : Obligations.HighEscapedLowRawIsMisread := by
  intro s start l1 l2 lo stop p ⟨hs, hg, hcrc⟩ hload hm
  obtain ⟨w, x, hw⟩ : ∃ w x, start :: p = w ++ [x] :=
    ⟨_, _, (List.dropLast_append_getLast (List.cons_ne_nil start p)).symm⟩
  have hx : CsxBytes s x l1 l2 lo := csxBytes_of_loaded (w := w) (e := stop) (by simpa [hw] using hload)
  have hcut : Loaded (start :: (p ++ [l1]) ++ [l2, lo] ++ [stop]) s := by simpa using hload
  have hf : fieldOf x l1 l2 lo = ⟨l2, lo, 2⟩ := fieldOf_raw (second_not_lead hm lo) x l1
  have hexec := exec_decode_loaded hs hg hcut hx (by rw [hf]; rfl)
  have hscan : scan (payloadBytes (extracted ⟨l2, lo, 2⟩ s)) = scan p ++ [l1] := by
    rw [payloadBytes_extracted hcut rfl, scan_concat (lead_not_second hm)]
  rw [hf, decodeResult_eq start stop _ s hcrc _ hscan] at hexec
  refine ⟨_, hexec, rfl, rfl, rfl, rfl, rfl, ?_, rfl, ?_⟩
  · show s.len - 2 - 2 = p.length + 1
    simp [hload.2]
  · exact (Memory.readBytes_written (by simp)).trans (by simp)

end Sys2Proof.Machine

/-! PROOFS. `DECODE` (spec/43_decode.md): its symbols, its result on a frame cut by its checksum field, and the round trip of an encoded frame. -/

namespace Sys2Proof.Machine

/-! ### The symbols of a scan (R153, R154, R181) -/

/-- Below the capacity a symbol answers the scan step of its byte and length. -/
theorem exec_symbol_stepped {i : Instr} {d : Byte} {s : State} (hd : symbolByte i = some d)
    (hcap : scanBase s + s.o < s.len) : exec i s = .next (stepped d (symbolLength i) s) := by
  rw [exec_symbol s hd, symbolStep_ok hcap, toOut_ok]

/-- Settles O14: the scan step with the base and the CRC of each scan. -/
theorem symbolsEmitAndAdvance : Obligations.SymbolsEmitAndAdvance := by
  intro i d s hd
  refine ⟨fun hk hcap => ?_, fun hk hcap => ?_⟩
  · have hbase : scanBase s = 1 := by rw [scanBase, hk]
    rw [exec_symbol_stepped hd (by rwa [hbase]), stepped, hbase, if_pos hk]
  · have hbase : scanBase s = 0 := by rw [scanBase, hk]
    rw [exec_symbol_stepped hd (by rwa [hbase, Nat.zero_add]), stepped, hbase, Nat.zero_add, if_neg (by simp [hk])]

/-- Settles O15: whatever a symbol answers is the state after one scan step. -/
theorem symbolsLeaveTheRest : Obligations.SymbolsLeaveTheRest := by
  intro i d s t hd h
  rw [exec_symbol s hd] at h
  obtain ⟨-, rfl⟩ := symbolStep_next h
  refine ⟨fun a ha => Memory.read_write_other ha, Memory.read_write_same _ _ _, fun hk => ?_, fun _ => rfl, ?_⟩
  · simp [stepped, hk]
  · exact ⟨rfl, rfl, rfl, rfl, rfl, rfl, rfl, rfl, rfl, rfl, rfl, rfl, rfl, rfl, rfl, rfl, rfl, rfl⟩

/-! ### Frames that are too short, and frames that are not (R151, R164) -/

/-- Settles O24: the length is checked before anything else, and the raise writes `STATE` and `FAULT_CODE`. -/
theorem decodeOfShortFrameFaults : Obligations.DecodeOfShortFrameFaults := by
  intro s hs h5
  have hexec : exec .decode s = .next (raise (.frameTooShort s.len) s) := execDecode_short hs h5
  exact ⟨.admission, s.draws + 1, by rw [hexec, raise_of_not_fault (by simp [hs])]; rfl⟩

/-- Only two matched windows take four bytes (R133). -/
theorem fieldOf_escLen_le_three {a b c d : Byte} (h : ¬ ((esc a b).2 = true ∧ (esc c d).2 = true)) :
    (fieldOf a b c d).escLen.toNat ≤ 3 := by
  cases hcd : (esc c d).2 with
  | false => rw [fieldOf_raw hcd]; exact Nat.le_succ 2
  | true => rw [fieldOf_lowEscaped hcd (by simpa [hcd] using h)]; exact le_refl 3

/-- Settles O22: from six bytes on the payload length is not negative, and in five bytes it is not either, unless both windows match. -/
theorem decodeIsTotal : Obligations.DecodeIsTotal := by
  intro s f hs hg hload h5 hnot
  obtain ⟨-, hheld⟩ := loaded_held hload
  have hlen : s.len = f.length := hload.2
  obtain ⟨a, b, c, d, hx, hl⟩ : ∃ a b c d, CsxBytes s a b c d ∧ (fieldOf a b c d).escLen.toNat + 2 ≤ s.len := by
    by_cases h6 : 6 ≤ s.len
    · obtain ⟨a, b, c, d, hx⟩ := hheld.csxBytes (le_trans (by decide) h6)
      have hesc := (fieldOf_escLen a b c d).2
      exact ⟨a, b, c, d, hx, by omega⟩
    · obtain ⟨a, w, rfl⟩ := List.exists_of_length_succ f (show f.length = 4 + 1 by omega)
      obtain ⟨b, c, d, e, rfl⟩ := List.length_eq_four.1 (Nat.succ.inj (show (a :: w).length = 5 by omega))
      have hesc := fieldOf_escLen_le_three (hnot a b c d e rfl)
      exact ⟨a, b, c, d, csxBytes_of_loaded (w := []) hload, by omega⟩
  obtain ⟨b0, e, hb, he, -⟩ := held_ends hheld (by omega)
  exact ⟨_, exec_decode_ok hs hg hheld hx hl hb he, rfl⟩

/-! ### The whole next state (R159) -/

/-- CSX extracts from a loaded frame the checksum field that R72's three forms tell. -/
theorem fieldOf_of_checksumForm {s : State} {start stop hi lo : Byte} {payload field : List Byte}
    (hload : Loaded (start :: payload ++ field ++ [stop]) s) (h5 : 5 ≤ s.len)
    (hform : checksumForm ((start :: payload).getLast (List.cons_ne_nil _ _)) field = some (hi, lo)) :
    ∃ a b c d, CsxBytes s a b c d ∧ fieldOf a b c d = ⟨hi, lo, BitVec.ofNat 3 field.length⟩ ∧ field.length ≤ 4 := by
  have hlast := List.dropLast_append_getLast (List.cons_ne_nil start payload)
  generalize (start :: payload).getLast (List.cons_ne_nil start payload) = x at hlast hform
  match field with
  | [] | [_] | _ :: _ :: _ :: _ :: _ :: _ => simp [checksumForm] at hform
  | [c, d] =>
    have hpos : 0 < payload.length := by
      have hlen := hload.2
      simp only [List.length_append, List.length_cons, List.length_nil] at hlen
      omega
    have hne : (start :: payload).dropLast ≠ [] := List.ne_nil_of_length_pos (by simpa using hpos)
    obtain ⟨w, a, hw⟩ : ∃ w a, (start :: payload).dropLast = w ++ [a] :=
      ⟨_, _, (List.dropLast_append_getLast hne).symm⟩
    rw [hw] at hlast
    obtain ⟨hcd, rfl, rfl⟩ : (esc c d).2 = false ∧ c = hi ∧ d = lo := by simpa [checksumForm] using hform
    exact ⟨a, x, c, d, csxBytes_of_loaded (w := w) (e := stop) (by simpa [← hlast] using hload),
      fieldOf_raw hcd a x, by simp⟩
  | [b, c, d] =>
    obtain ⟨⟨hcd, hab⟩, rfl, rfl⟩ : ((esc c d).2 = true ∧ (esc x b).2 = false) ∧ b = hi ∧ (esc c d).1 = lo := by
      simpa [checksumForm] using hform
    exact ⟨x, b, c, d, csxBytes_of_loaded (w := (start :: payload).dropLast) (e := stop)
      (by rw [← hlast] at hload; simpa using hload), fieldOf_lowEscaped hcd hab, by simp⟩
  | [a, b, c, d] =>
    obtain ⟨⟨hcd, hab⟩, rfl, rfl⟩ :
        ((esc c d).2 = true ∧ (esc a b).2 = true) ∧ (esc a b).1 = hi ∧ (esc c d).1 = lo := by
      simpa [checksumForm] using hform
    exact ⟨a, b, c, d, csxBytes_of_loaded (w := start :: payload) (e := stop) (by simpa using hload),
      fieldOf_bothEscaped hcd hab, by simp⟩

/-- Settles O21: CSX cuts the frame as its checksum field says, and `DECODE`'s result is known field by field. The theorem stands in a namespace of its own, since `decodeResult` is the result state. -/
theorem DecodeCommand.decodeResult : Obligations.DecodeResult := by
  intro s start stop hi lo payload field ⟨hs, hg, hcrc⟩ hload h5 hform
  obtain ⟨a, b, c, d, hx, hf, hfl⟩ := fieldOf_of_checksumForm hload h5 hform
  have hesc : (BitVec.ofNat 3 field.length).toNat = field.length := by
    rw [BitVec.toNat_ofNat]; exact Nat.mod_eq_of_lt (by omega)
  have hpay : s.len - field.length - 2 = payload.length := by
    simp only [hload.2, List.length_append, List.length_cons, List.length_nil]
    omega
  have hexec := exec_decode_loaded hs hg hload hx (by rw [hf]; exact hesc)
  rw [hf, decodeResult_eq start stop _ s hcrc _ (congrArg scan (payloadBytes_extracted hload hesc))] at hexec
  simp only [hesc, hpay] at hexec
  exact hexec

/-! ### The validity flag (R157) -/

theorem Memory.read_written {m : Memory} {bs : List Byte} {k : Nat} (h : k < bs.length) :
    Memory.read (Memory.writeBytes m 0 bs) k = bs[k]? := by
  rw [Memory.read_writeBytes, if_pos ⟨Nat.zero_le k, by omega⟩, Nat.sub_zero]

/-- Settles O26: of the three ends of `DECODE` only the completed one is in `DONE`, and its fields are known. -/
theorem validityComparesPayloadCrcWithParsed : Obligations.ValidityComparesPayloadCrcWithParsed := by
  intro s t hheld ⟨hs, hg, hcrc⟩ h hdone
  rcases exec_decode_cases hheld hg hs h with ⟨-, rfl⟩ | ⟨a, b, c, d, -, ⟨-, rfl⟩ | ⟨-, b0, e, -, -, rfl⟩⟩
  · simp at hdone
  · simp at hdone
  · rw [decodeResult_eq b0 e _ s hcrc _ rfl]
    generalize scan (payloadBytes (extracted (fieldOf a b c d) s)) = p
    refine ⟨p, rfl, ?_, beq_iff_eq, rfl, ?_, ?_⟩
    · refine Memory.readBytes_eq fun k hk => ?_
      rw [Memory.read_written (by simp; omega), List.cons_append, Nat.add_comm, List.getElem?_cons_succ,
        List.getElem?_append_left hk]
    · rw [Memory.read_written (by simp)]; simp
    · rw [Memory.read_written (by simp)]; simp

/-! ### The round trip of an encoded frame (R163 item 3) -/

theorem stuffByte_of_some {b b0 b1 : Byte} (h : escEnc b = some (b0, b1)) : stuffByte b = [b0, b1] := by
  rw [stuffByte, h]

theorem stuffByte_of_none {b : Byte} (h : escEnc b = none) : stuffByte b = [b] := by rw [stuffByte, h]

theorem stuff_pair (x y : Byte) : stuff [x, y] = stuffByte x ++ stuffByte y := by simp [stuff]

/-- The stuffed checksum of an encoder has one of R72's three forms behind a byte that is no lead byte, unless its high byte is escaped and its low byte is not (R138). -/
theorem checksumForm_stuff {before h l : Byte} (hb : before ≠ 0x5A ∧ before ≠ 0x5E)
    (hne : ¬ (isEscapable h = true ∧ isEscapable l = false)) :
    checksumForm before (stuff [h, l]) = some (h, l) := by
  rw [← escEnc_isSome, ← escEnc_isSome] at hne
  rw [stuff_pair]
  rcases hl : escEnc l with _ | ⟨l0, l1⟩
  · rcases hh : escEnc h with _ | ⟨h0, h1⟩
    · obtain ⟨hA, hE⟩ := escEnc_none_not_lead hh
      rw [stuffByte_of_none hh, stuffByte_of_none hl]
      simp [checksumForm, esc_of_not_lead hA hE]
    · simp [hh, hl] at hne
  · rcases hh : escEnc h with _ | ⟨h0, h1⟩
    · rw [stuffByte_of_none hh, stuffByte_of_some hl]
      simp [checksumForm, esc_of_escEnc hl, esc_of_not_lead hb.1 hb.2]
    · rw [stuffByte_of_some hh, stuffByte_of_some hl]
      simp [checksumForm, esc_of_escEnc hl, esc_of_escEnc hh]

theorem length_le_length_stuff (p : List Byte) : p.length ≤ (stuff p).length := by
  have hscan := (scan_length_bounds (stuff p)).1
  rwa [scanOfStuffIsIdentity] at hscan

/-- Settles O27: the frame is cut into the stuffed payload and the stuffed checksum, which has one of the three forms, and the payload scans back. -/
theorem encodedFrameDecodesToItsPayload : Obligations.EncodedFrameDecodesToItsPayload := by
  intro s p hp hready hload hne
  have hpos : 0 < p.length := List.length_pos_iff.2 hp
  have hpl := length_le_length_stuff p
  have hfl := length_le_length_stuff [hiByte (crcRun s.cfg p), loByte (crcRun s.cfg p)]
  have h5 : 5 ≤ s.len := by
    simp only [hload.2, frameOf, List.length_append, List.length_cons, List.length_nil] at hfl ⊢
    omega
  have hform := checksumForm_stuff (stuff_last p startMarker (by decide)) hne
  have hexec := DecodeCommand.decodeResult s startMarker endMarker _ _ (stuff p) _ hready hload h5 hform
  rw [scanOfStuffIsIdentity] at hexec
  refine ⟨_, hexec, rfl, ?_, rfl, rfl, ?_⟩
  · exact beq_iff_eq.2 (joinBytes_hiByte_loByte (crcRun s.cfg p)).symm
  · exact Memory.readBytes_written (by simp)

end Sys2Proof.Machine

/-! PROOFS. Error detection of the default CRC table (spec/43_decode.md R163 item 2; spec/41_crc_engine.md R118). -/

namespace Sys2Proof.Machine

/-- The index of the default table's entry with a given low byte. -/
def entryIndex (y : Byte) : Byte := (y ^^^ y <<< 5) ^^^ ((y ^^^ y <<< 5) >>> 4)

/-- The low bytes of the default table's entries are all different: each gives its index back. -/
theorem entryIndex_loByte (k : Byte) : entryIndex (loByte (tableEntry defaultConfig k)) = k := by
  rw [tableEntry_defaultConfig]
  revert k
  decide

theorem loByte_xor (v w : Half) : loByte (v ^^^ w) = loByte v ^^^ loByte w := BitVec.extractLsb'_xor

/-- The low byte of an updated register is that of the table entry alone (R116 item 4). -/
theorem loByte_crcUpd (cfg : Config) (c : Half) (b : Byte) :
    loByte (crcUpd cfg c b) = loByte (tableEntry cfg (hiByte c ^^^ b)) := by
  rw [crcUpd, shiftLeft_eight_eq_joinBytes, loByte_xor, loByte_joinBytes, zero_xor]

/-- Under the default table an update determines the index it used and the register's low byte. -/
theorem crcUpd_default_eq {c c' : Half} {b b' : Byte} (h : crcUpd defaultConfig c b = crcUpd defaultConfig c' b') :
    hiByte c ^^^ b = hiByte c' ^^^ b' ∧ loByte c = loByte c' := by
  have hindex : hiByte c ^^^ b = hiByte c' ^^^ b' := by
    have hlo := congrArg (fun v => entryIndex (loByte v)) h
    simpa only [loByte_crcUpd, entryIndex_loByte] using hlo
  rw [crcSplitsIntoShiftAndIndex, crcSplitsIntoShiftAndIndex, hindex] at h
  exact ⟨hindex, (joinBytes_inj.1 ((BitVec.xor_left_inj _).1 h)).1⟩

/-- Under the default table different registers stay different over any bytes. -/
theorem crcFrom_default_injective {c c' : Half} {q : List Byte}
    (h : crcFrom defaultConfig c q = crcFrom defaultConfig c' q) : c = c' := by
  induction q generalizing c c' with
  | nil => exact h
  | cons b q ih =>
    obtain ⟨hhi, hlo⟩ := crcUpd_default_eq (ih h)
    rw [← joinBytes_hiByte_loByte c, ← joinBytes_hiByte_loByte c', hlo, (BitVec.xor_left_inj b).1 hhi]

/-- Settles O13: the changed byte gives different registers, and the bytes behind it keep them different. -/
theorem singleByteChangeChangesCrc : Obligations.SingleByteChangeChangesCrc := by
  intro p q x y hxy h
  simp only [crcRun, crcFrom, List.foldl_append, List.foldl_cons] at h
  exact hxy ((BitVec.xor_right_inj _).1 (crcUpd_default_eq (crcFrom_default_injective h)).1)

end Sys2Proof.Machine

/-! PROOFS. The automaton (spec/43_decode.md R160): its admission and CSX steps, the run of a whole command, and the invariant every step keeps. -/

namespace Sys2Proof.Machine

/-! ### Admission and checksum extraction -/

/-- Run step by step, an admitted `DECODE` goes on to CSX. -/
theorem exec_decode_admitted {s : State} (hs : s.status = .fresh) (hg : s.grain = .stepwise) (h5 : minLen ≤ s.len) :
    exec .decode s = .next (enterBusy .csx s) := by
  simp [exec, execDecode, unlessFault, hs, hg, Nat.not_lt.2 h5]

/-- Settles O36: the two admissions are `enterBusy`, for `FULL_DECODE` with its scan begun. -/
theorem stepwiseAdmissionEntersBusy : Obligations.StepwiseAdmissionEntersBusy :=
  fun _ hs hg => ⟨exec_decode_admitted hs hg, exec_fullDecode_stepwise hs hg⟩

theorem step_csx_of_exec {s u : State} (hp : s.phase = .csx) (h : exec .csx s = .next u) : step s = afterCsx u := by
  rw [step_csx hp, h, andThen_next]

/-- Where CSX raised, the command is over. -/
theorem afterCsx_of_fault {u : State} (hs : u.status = .fault) : afterCsx u = .next u := if_pos hs

/-- Where CSX did not raise, the scan begins with the start byte copied (R152). -/
theorem afterCsx_of_not_fault {u : State} {b : Byte} (hs : u.status ≠ .fault) (hb : Memory.read u.inMem 0 = some b)
    (hl : 0 < u.len) : afterCsx u = .next { scanStarted b u with phase := .scan } := by
  rw [afterCsx, if_neg hs, beginDecode_eq hb hl, toOut_ok, andThen_next]

/-- Settles O47: what the step does after CSX, by whether CSX raised. -/
theorem stepRunsExtraction : Obligations.StepRunsExtraction := by
  intro s u b hp hu
  rw [step_csx_of_exec hp hu]
  exact ⟨afterCsx_of_fault, afterCsx_of_not_fault⟩

/-- The `P_CSX` step where the payload length is not negative. -/
theorem step_csx_extracted {s : State} {a b c d b0 : Byte} (hp : s.phase = .csx) (hs : s.status ≠ .fault)
    (hx : CsxBytes s a b c d) (hl : (fieldOf a b c d).escLen.toNat + 2 ≤ s.len)
    (hb : Memory.read s.inMem 0 = some b0) :
    step s = .next { scanStarted b0 (extracted (fieldOf a b c d) s) with phase := .scan } := by
  rw [step_csx_of_exec hp (exec_csx_ok hx hl)]
  exact afterCsx_of_not_fault (u := extracted _ s) hs hb (show 0 < s.len by omega)

/-- The `P_CSX` step where the payload length would be negative. -/
theorem step_csx_raise {s : State} {a b c d : Byte} (hp : s.phase = .csx) (hx : CsxBytes s a b c d)
    (hl : s.len < (fieldOf a b c d).escLen.toNat + 2) :
    step s = .next (raise (.frameTooShort s.len) (storeChecksum (fieldOf a b c d) s)) := by
  rw [step_csx_of_exec hp (exec_csx_raise hx hl)]
  exact afterCsx_of_fault (raise_status _ _)

/-! ### Runs of the automaton -/

/-- `k` steps of a command in progress lead from `s` to `t`. -/
def Running : Nat → State → State → Prop
  | 0, s, t => s = t
  | k + 1, s, t => s.phase ≠ .admission ∧ ∃ u, step s = .next u ∧ Running k u t

theorem run_succ {M : Host.Core} {s u : M.State} (h : M.step s = .next u) (n : Nat) : M.run (n + 1) s = M.run n u := by
  rw [Host.Core.run, h]

/-- Steps of a command in progress are a run of the machine behind the host's interface. -/
theorem Running.run {k : Nat} {s t : State} (h : Running k s t) : Host.Core.run core k s = .next t := by
  induction k generalizing s with
  | zero => cases h; rfl
  | succ k ih =>
    obtain ⟨-, u, hu, h⟩ := h
    exact (run_succ (M := core) hu k).trans (ih h)

theorem Running.of_step {s t : State} (hp : s.phase ≠ .admission) (h : step s = .next t) : Running 1 s t :=
  ⟨hp, t, h, rfl⟩

theorem Running.trans {m n : Nat} {s u t : State} (h : Running m s u) (h' : Running n u t) : Running (m + n) s t := by
  induction m generalizing s with
  | zero => cases h; rwa [Nat.zero_add]
  | succ m ih =>
    obtain ⟨hp, v, hv, h⟩ := h
    rw [Nat.add_right_comm]
    exact ⟨hp, v, hv, ih h⟩

/-- From `P_SCAN` the automaton emits `SCAN` of what is left of the region and comes to `P_ASM`, with a step for each symbol, or one step where nothing is left. -/
theorem running_scan {s : State} (hp : s.phase = .scan) (h : RegionHeld s) (hi : s.i ≤ scanLen s) (ho : s.o ≤ s.i) :
    ∃ n ≤ scanLen s - s.i + 1,
      Running n s { steppedMany (scan ((scanRegion s).drop s.i)) (scanLen s) s with phase := .asm } := by
  induction hm : scanLen s - s.i using Nat.strong_induction_on generalizing s with
  | _ m ih =>
    subst hm
    have hbusy : s.phase ≠ .admission := by simp [hp]
    have scan_rest_nil (k : Nat) (hk : scanLen s ≤ k) : scan ((scanRegion s).drop k) = [] := by
      rw [List.drop_eq_nil_of_le (by rwa [scanRegion_length h]), scan_nil]
    rcases hi.eq_or_lt with hend | hlt
    · refine ⟨1, by omega, .of_step hbusy ?_⟩
      rw [step_scan_over hp (by omega), scan_rest_nil _ hend.ge, ← hend, steppedMany_nil]
    · obtain ⟨b, n, hfront, hn, hstep⟩ := step_scan_symbol hp h hlt ho
      obtain ⟨hpos, -⟩ := frontSymbol_length hfront
      rw [scan_front hfront, List.drop_drop, ← steppedMany_stepped b n]
      by_cases hmore : s.i + n < scanLen s
      · rw [if_pos hmore] at hstep
        obtain ⟨k, hk, hrun⟩ := ih (scanLen s - (s.i + n)) (by omega) (s := { stepped b n s with phase := .scan })
          rfl ⟨h.frame, h.inside⟩ hn (show s.o + 1 ≤ s.i + n by omega) rfl
        exact ⟨1 + k, by omega, (Running.of_step hbusy hstep).trans hrun⟩
      · rw [if_neg hmore] at hstep
        have hlast : scanLen s = (stepped b n s).i := Nat.le_antisymm (Nat.not_lt.1 hmore) hn
        refine ⟨1, by omega, ?_⟩
        rw [scan_rest_nil _ (Nat.not_lt.1 hmore), hlast, steppedMany_nil]
        exact .of_step hbusy hstep

/-- The `P_ASM` step of `DECODE` where the output fits. -/
theorem step_asm_decode {s : State} {e : Byte} (hp : s.phase = .asm) (hk : s.kind = .decode)
    (he : Memory.read s.inMem (s.len - 1) = some e) (h : s.o + 3 < s.len) : step s = .next (assembled e s) := by
  rw [step_asm hp, assemble, hk]
  exact congrArg toOut (assembleDecode_eq he h)

/-- From the start of `DECODE`'s scan the automaton scans the payload and assembles the output. -/
theorem running_scanStarted {s : State} {b e : Byte} (hf : FrameHeld s) (hpay : s.payLen + 4 ≤ s.len)
    (he : Memory.read s.inMem (s.len - 1) = some e) :
    ∃ n ≤ s.payLen + 2, Running n { scanStarted b s with phase := .scan }
      (assembled e (steppedMany (scan (payloadBytes s)) s.payLen (scanStarted b s))) := by
  have hlen := (scan_length_bounds (payloadBytes s)).1
  rw [payloadBytes_length hf (by omega)] at hlen
  obtain ⟨n, hn, hscan⟩ : ∃ n ≤ s.payLen + 1, Running n { scanStarted b s with phase := .scan }
      { steppedMany (scan (payloadBytes s)) s.payLen (scanStarted b s) with phase := .asm } :=
    running_scan (s := { scanStarted b s with phase := .scan }) rfl
      ⟨hf, fun _ => show s.payLen + 1 ≤ s.len by omega⟩ (Nat.zero_le _) (le_refl 0)
  refine ⟨n + 1, by omega, hscan.trans (.of_step Phase.noConfusion (step_asm_decode rfl rfl he ?_))⟩
  show 0 + (scan (payloadBytes s)).length + 3 < s.len
  omega

/-- From `P_CSX` the automaton ends in `DECODE`'s result. -/
theorem running_decode {s : State} {a b c d b0 e : Byte} (hp : s.phase = .csx) (hs : s.status ≠ .fault)
    (hf : FrameHeld s) (hx : CsxBytes s a b c d) (hl : (fieldOf a b c d).escLen.toNat + 2 ≤ s.len)
    (hb : Memory.read s.inMem 0 = some b0) (he : Memory.read s.inMem (s.len - 1) = some e) :
    ∃ n ≤ s.len, Running n s (decodeResult b0 e (fieldOf a b c d) s) := by
  have hesc := (fieldOf_escLen a b c d).1
  have hpay : (extracted (fieldOf a b c d) s).payLen = s.len - (fieldOf a b c d).escLen.toNat - 2 := rfl
  obtain ⟨n, hn, hrun⟩ := running_scanStarted (b := b0) (frameHeld_extracted hf (fieldOf a b c d))
    (show (extracted (fieldOf a b c d) s).payLen + 4 ≤ s.len by omega) he
  exact ⟨1 + n, by omega, (Running.of_step (by simp [hp]) (step_csx_extracted hp hs hx hl hb)).trans hrun⟩

/-- From the scan's start the automaton ends in `FULL_DECODE`'s result. -/
theorem running_fullDecode {s : State} (hf : FrameHeld s) :
    ∃ n ≤ s.len + 2, Running n (enterBusy .scan (beginFull s)) (fullResult s) := by
  obtain ⟨n, hn, hscan⟩ := running_scan (s := enterBusy .scan (beginFull s)) rfl ⟨hf, ScanKind.noConfusion⟩
    (Nat.zero_le _) (le_refl 0)
  have hn : n ≤ s.len + 1 := hn
  exact ⟨n + 1, by omega, hscan.trans (.of_step Phase.noConfusion (step_asm rfl))⟩

/-- The code of a value written to `CMD` is its low two bits, as the decoder reads them (R192). -/
theorem requestInstr_command (v : Nat) : requestInstr (.write 0 v) = .ok (commandOf (BitVec.ofNat 2 v)) := by
  have hcode : (BitVec.ofNat 8 v).setWidth 2 = BitVec.ofNat 2 v := BitVec.setWidth_ofNat_of_le (by decide) v
  rw [requestInstr, decodeFront, hcode]

/-- A write of `CMD` with no command in progress runs the command (R192). -/
theorem step_command {s : State} (hp : s.phase = .admission) (v : Nat) :
    step { s with requests := .write 0 v :: s.requests } = exec (commandOf (BitVec.ofNat 2 v)) s :=
  step_request (s := { s with requests := .write 0 v :: s.requests }) hp rfl (requestInstr_command v)

/-- `DECODE` run step by step ends as the one transition does (R159, R160). -/
theorem running_decode_command {s t : State} (hf : FrameHeld s) (hs : s.status = .fresh) (hg : s.grain = .atomic)
    (h : exec .decode s = .next t) :
    ∃ u, exec .decode { s with grain := .stepwise } = .next u ∧
      ∃ n ≤ s.len, Running n u { t with grain := .stepwise } := by
  have hnf : s.status ≠ .fault := by simp [hs]
  rcases exec_decode_cases hf hg hs h with ⟨h5, rfl⟩ | ⟨a, b, c, d, hx, ⟨hl, rfl⟩ | ⟨hl, b0, e, hb, he, rfl⟩⟩
  · refine ⟨_, execDecode_short (s := { s with grain := .stepwise }) hs h5, 0, Nat.zero_le _, ?_⟩
    rw [raise_of_not_fault hnf, raise_of_not_fault (by exact hnf)]
    rfl
  · refine ⟨_, exec_decode_admitted (s := { s with grain := .stepwise }) hs rfl hx.long, 1,
      le_trans (by decide) hx.long, .of_step Phase.noConfusion ?_⟩
    rw [step_csx_raise (s := enterBusy .csx { s with grain := .stepwise }) rfl ⟨hx.long, hx.a, hx.b, hx.c, hx.d⟩ hl,
      raise_of_not_fault Status.noConfusion, raise_of_not_fault (by exact hnf)]
    rfl
  · exact ⟨_, exec_decode_admitted (s := { s with grain := .stepwise }) hs rfl hx.long,
      running_decode (s := enterBusy .csx { s with grain := .stepwise }) rfl Status.noConfusion hf
        ⟨hx.long, hx.a, hx.b, hx.c, hx.d⟩ hl hb he⟩

/-- Settles O57: one step takes the command, and the automaton goes on from its admission to the atomic result. -/
theorem stepwiseRunRefinesAtomicCommand : Obligations.StepwiseRunRefinesAtomicCommand := by
  intro s t v hf hs hp hg hv h
  obtain ⟨u, hu, n, hn, hrun⟩ : ∃ u, exec (commandOf (BitVec.ofNat 2 v)) { s with grain := .stepwise } = .next u ∧
      ∃ n ≤ s.len + 2, Running n u { t with grain := .stepwise } := by
    rcases hv with hv | hv <;> rw [hv] at h ⊢
    · obtain ⟨u, hu, n, hn, hrun⟩ := running_decode_command hf hs hg h
      exact ⟨u, hu, n, by omega, hrun⟩
    · cases (exec_fullDecode_ok hf hs hg).symm.trans h
      exact ⟨_, exec_fullDecode_stepwise (s := { s with grain := .stepwise }) hs rfl,
        running_fullDecode (s := { s with grain := .stepwise }) hf⟩
  exact ⟨n + 1, by omega, (run_succ (M := core) ((step_command (s := { s with grain := .stepwise }) hp v).trans hu) n).trans
    hrun.run⟩

end Sys2Proof.Machine

/-! PROOFS. Every step keeps the invariant (spec/10_state.md R24, R25, R30, R31, R42; spec/43_decode.md R160). -/

namespace Sys2Proof.Machine

/-! ### `OUT` within its capacity -/

theorem outHeld_of_bytes {s : State} {bs : List Byte} (h : s.outMem = Memory.ofBytes bs) (hl : bs.length ≤ s.len) :
    OutHeld s := by
  refine ⟨by rw [h, Memory.ofBytes_wf], fun c hc => ?_⟩
  rw [h] at hc
  have hlt := (Memory.mem_ofBytesFrom hc).2
  omega

/-- Inside a scan `OUT` holds no more bytes than the frame has. -/
theorem outHeld_of_scanFits {s : State} (hf : FrameHeld s) (h : ScanFits s) : OutHeld s := by
  have hoi := o_le_i_of_scanFits h
  have hregion := scanBase_add_scanLen (regionHeld_of_scanFits hf h)
  obtain ⟨-, hi, -, ho, hk⟩ := h
  cases hkind : s.kind with
  | decode =>
    rw [hkind] at hk
    have hbase : scanBase s = 1 := by rw [scanBase, hkind]
    refine outHeld_of_bytes hk.2.2 ?_
    have htake := List.length_take_le 1 (frameBytes s)
    rw [List.length_append]
    omega
  | full =>
    rw [hkind] at hk
    exact outHeld_of_bytes hk.2 (by omega)

/-- A completed command leaves no more bytes in `OUT` than the frame has. -/
theorem outHeld_of_resultFits {s : State} (hf : FrameHeld s) (h : ResultFits s) : OutHeld s := by
  unfold ResultFits at h
  cases hkind : s.kind with
  | decode =>
    rw [hkind] at h
    obtain ⟨hbounds, -, hcrc, -, -, hout⟩ := h
    have hlen := scan_payload_length hf hbounds
    obtain ⟨b0, e, -, -, hb0, he⟩ := held_ends hf (by omega)
    rw [decodedOutput_eq hb0 he hcrc] at hout
    exact outHeld_of_bytes hout (by simp only [List.length_cons, List.length_append, List.length_nil]; omega)
  | full =>
    rw [hkind] at h
    have hle := (scan_length_bounds (frameBytes s)).1
    have hlen := hf.2
    exact outHeld_of_bytes h.2.2.2 (by omega)

/-! ### Good states, by `STATE` -/

theorem Inv.faultCode_eq_zero {s : State} (h : Inv s) (hs : s.status ≠ .fault) : s.faultCode = 0 := by
  have hcode := h.faultCode
  rwa [FaultCodeFits, if_neg hs] at hcode

theorem Inv.untouched {s : State} (h : Inv s) (hs : s.status = .fresh) : Untouched s := by
  have hfit := h.session
  rwa [SessionFits, hs] at hfit

/-- What a command keeps of the session is what the invariant says of the frame. -/
theorem SessionKept.frameHeld {s t : State} (hk : SessionKept s t) (h : FrameHeld s) : FrameHeld t := by
  have hbytes : frameBytes t = frameBytes s := congrArg (List.map Prod.snd) hk.inMem
  rwa [FrameHeld, hbytes, hk.inMem, hk.len]

theorem SessionKept.withinCapacity {s t : State} (hk : SessionKept s t) (h : WithinCapacity s) : WithinCapacity t := by
  rwa [WithinCapacity, hk.cfg, hk.len]

/-- The four codes of R241. -/
theorem trapCode_range (f : Trap) : 1 ≤ (trapCode f).toNat ∧ (trapCode f).toNat ≤ 4 := by
  cases f <;> simp [trapCode]

/-- A fault entry leaves a good state wherever the memories are in order (R245). -/
theorem inv_raise {s : State} (hf : FrameHeld s) (ho : OutHeld s) (hc : WithinCapacity s) (hs : s.status ≠ .fault)
    (f : Trap) : Inv (raise f s) := by
  rw [raise_of_not_fault hs]
  exact ⟨hf, ho, hc, trapCode_range f, ⟨fun _ => Status.noConfusion, fun _ => rfl⟩, trivial⟩

theorem Inv.raise {s : State} (h : Inv s) (f : Trap) : Inv (raise f s) := by
  by_cases hs : s.status = .fault
  · rwa [raise_of_fault hs]
  · exact inv_raise h.frame h.out h.capacity hs f

/-- A completed command leaves a good state where its result fits. -/
theorem inv_done {s : State} (hf : FrameHeld s) (hc : WithinCapacity s) (hcode : s.faultCode = 0)
    (hs : s.status = .done) (hp : s.phase = .admission) (hfit : ResultFits s) : Inv s where
  frame := hf
  out := outHeld_of_resultFits hf hfit
  capacity := hc
  faultCode := by rwa [FaultCodeFits, if_neg (by simp [hs])]
  phase := by simp [PhaseFits, hs, hp]
  session := by rwa [SessionFits, hs]

/-- Inside a scan a state is good where the scan fits, and in `P_ASM` where nothing is left of it. -/
theorem inv_scanning {s : State} (hf : FrameHeld s) (hc : WithinCapacity s) (hcode : s.faultCode = 0)
    (hs : s.status = .busy) (hfit : ScanFits s) (hp : s.phase = .scan ∨ (s.phase = .asm ∧ s.i = scanLen s)) :
    Inv s where
  frame := hf
  out := outHeld_of_scanFits hf hfit
  capacity := hc
  faultCode := by rwa [FaultCodeFits, if_neg (by simp [hs])]
  phase := by rcases hp with hp | ⟨hp, -⟩ <;> simp [PhaseFits, hs, hp]
  session := by
    rcases hp with hp | ⟨hp, hend⟩ <;> rw [SessionFits, hs, hp]
    · exact hfit
    · exact ⟨hfit, hend⟩

/-! ### The two scans (R160) -/

theorem onBoundary_zero (w : List Byte) : onBoundary w 0 = true := by cases w <;> rfl

/-- The scan of `DECODE` starts with the start byte in `OUT` and nothing consumed (R152). -/
theorem scanFits_scanStarted {s : State} {b0 : Byte} {f : ChecksumField} (hu : Untouched s)
    (hb : (frameBytes s).take 1 = [b0]) (hesc : 2 ≤ f.escLen.toNat ∧ f.escLen.toNat ≤ 4)
    (hl : f.escLen.toNat + 2 ≤ s.len) : ScanFits (scanStarted b0 (extracted f s)) := by
  obtain ⟨hcrc, hmode, hout⟩ := hu
  refine ⟨hmode, Nat.zero_le _, onBoundary_zero _, rfl, ⟨?_, hesc.1, hesc.2, rfl⟩, hcrc, ?_⟩
  · show s.len - f.escLen.toNat - 2 + f.escLen.toNat + 2 = s.len
    omega
  · show Memory.write s.outMem 0 b0 = Memory.ofBytes ((frameBytes s).take 1 ++ [])
    rw [hb, hout]
    rfl

/-- The scan of `FULL_DECODE` starts with nothing consumed (R185). -/
theorem scanFits_beginFull {s : State} (hu : Untouched s) : ScanFits (beginFull s) := by
  obtain ⟨hcrc, hmode, hout⟩ := hu
  exact ⟨hmode, Nat.zero_le _, onBoundary_zero _, rfl, hcrc, hout⟩

theorem crcRun_concat (cfg : Config) (bs : List Byte) (b : Byte) :
    crcRun cfg (bs ++ [b]) = crcUpd cfg (crcRun cfg bs) b := by
  simp [crcRun, crcFrom]

/-- A scan step emits the symbol at the front of what is left: one more byte of `SCAN`, on a boundary again. -/
theorem scanFits_stepped {s : State} {b : Byte} {n : Nat} (hf : FrameHeld s) (h : ScanFits s)
    (hfront : frontSymbol ((scanRegion s).drop s.i) = some (b, n)) (hn : s.i + n ≤ scanLen s) :
    ScanFits (stepped b n s) := by
  obtain ⟨hmode, -, hbound, ho, hk⟩ := h
  obtain ⟨hbound', hemit⟩ := boundary_extend hbound hfront
  have hemit : emitted (stepped b n s) = emitted s ++ [b] := hemit
  refine ⟨hmode, hn, hbound', by rw [hemit, List.length_append, ← ho]; rfl, ?_⟩
  have hkind : (stepped b n s).kind = s.kind := rfl
  rw [hkind]
  cases hks : s.kind with
  | decode =>
    rw [hks] at hk
    obtain ⟨hbounds, hcrc, hout⟩ := hk
    refine ⟨hbounds, ?_, ?_⟩
    · rw [hemit, crcRun_concat]
      simp [stepped, hks, hcrc]
    · have hlen : scanBase s + s.o = ((frameBytes s).take 1 ++ emitted s).length := by
        obtain ⟨b0, -, -, -, hb0, -⟩ := held_ends hf (by omega)
        simp [scanBase, hks, hb0, ho, Nat.add_comm]
      rw [hemit, ← List.append_assoc]
      exact (congrArg (Memory.write · _ b) hout).trans (Memory.write_ofBytes_end hlen b)
  | full =>
    rw [hks] at hk
    obtain ⟨hcrc, hout⟩ := hk
    refine ⟨by simp [stepped, hks, hcrc], ?_⟩
    have hlen : scanBase s + s.o = (emitted s).length := by simp [scanBase, hks, ho]
    rw [hemit]
    exact (congrArg (Memory.write · _ b) hout).trans (Memory.write_ofBytes_end hlen b)

/-- At the end of a scan `SCAN` of the whole region is emitted. -/
theorem emitted_of_end {s : State} (h : RegionHeld s) (hend : s.i = scanLen s) : emitted s = scan (scanRegion s) := by
  rw [emitted, List.take_of_length_le (by rw [scanRegion_length h, hend])]

/-! ### Results (R42) -/

/-- The assembly of a finished scan of `DECODE` leaves what R42 says. -/
theorem resultFits_assembled {s : State} {e : Byte} (hf : FrameHeld s) (h : ScanFits s) (hk : s.kind = .decode)
    (hend : s.i = scanLen s) (he : (frameBytes s).drop (s.len - 1) = [e]) : ResultFits (assembled e s) := by
  have hemit := emitted_of_end (regionHeld_of_scanFits hf h) hend
  rw [scanRegion, hk] at hemit
  obtain ⟨-, -, -, ho, hd⟩ := h
  rw [hk] at hd
  obtain ⟨hbounds, hcrc, hout⟩ := hd
  obtain ⟨b0, -, -, -, hb0, -⟩ := held_ends hf (by omega)
  rw [hemit] at ho hcrc hout
  have hkind : (assembled e s).kind = .decode := hk
  rw [ResultFits, hkind]
  refine ⟨hbounds, rfl, hcrc, rfl, congrArg (· + 4) ho, ?_⟩
  rw [decodedOutput_eq (s := assembled e s) hb0 he hcrc]
  show Memory.writeBytes s.outMem (s.o + 1) _ = _
  rw [hout, hb0, Memory.writeBytes_ofBytes_end (by simp [ho])]
  rfl

/-- The completion of a finished scan of `FULL_DECODE` leaves what R42 says. -/
theorem resultFits_assembleFull {s : State} (hf : FrameHeld s) (h : ScanFits s) (hk : s.kind = .full)
    (hend : s.i = scanLen s) : ResultFits (assembleFull s) := by
  have hemit := emitted_of_end (regionHeld_of_scanFits hf h) hend
  rw [scanRegion, hk] at hemit
  obtain ⟨-, -, -, ho, hd⟩ := h
  rw [hk] at hd
  obtain ⟨hcrc, hout⟩ := hd
  rw [hemit] at ho hout
  have hkind : (assembleFull s).kind = .full := hk
  rw [ResultFits, hkind]
  exact ⟨rfl, hcrc, ho, hout⟩

/-! ### A command in progress -/

theorem inv_step_csx {s t : State} (hinv : Inv s) (hp : s.phase = .csx) (h : step s = .next t) : Inv t := by
  have hs : s.status = .busy := hinv.busy (by simp [hp])
  have hnf : s.status ≠ .fault := by simp [hs]
  have hfit := hinv.session
  rw [SessionFits, hs, hp] at hfit
  obtain ⟨hu, h5⟩ := hfit
  obtain ⟨a, b, c, d, hx⟩ := hinv.frame.csxBytes h5
  by_cases hl : (fieldOf a b c d).escLen.toNat + 2 ≤ s.len
  · obtain ⟨b0, -, hb, -, hb0, -⟩ := held_ends hinv.frame (by omega)
    cases (step_csx_extracted hp hnf hx hl hb).symm.trans h
    exact inv_scanning hinv.frame hinv.capacity (hinv.faultCode_eq_zero hnf) hs
      (scanFits_scanStarted hu hb0 (fieldOf_escLen a b c d) hl) (.inl rfl)
  · cases (step_csx_raise hp hx (Nat.not_le.1 hl)).symm.trans h
    exact inv_raise (s := storeChecksum _ s) hinv.frame hinv.out hinv.capacity hnf _

theorem inv_step_scan {s t : State} (hinv : Inv s) (hp : s.phase = .scan) (h : step s = .next t) : Inv t := by
  have hs : s.status = .busy := hinv.busy (by simp [hp])
  have hcode := hinv.faultCode_eq_zero (by simp [hs])
  have hfit := hinv.scanFits hp
  by_cases hi : s.i < scanLen s
  · obtain ⟨b, n, hfront, hn, hstep⟩ :=
      step_scan_symbol hp (regionHeld_of_scanFits hinv.frame hfit) hi (o_le_i_of_scanFits hfit)
    cases hstep.symm.trans h
    refine inv_scanning hinv.frame hinv.capacity hcode hs (scanFits_stepped hinv.frame hfit hfront hn) ?_
    by_cases hmore : s.i + n < scanLen s
    · exact .inl (if_pos hmore)
    · exact .inr ⟨if_neg hmore, Nat.le_antisymm hn (Nat.not_lt.1 hmore)⟩
  · cases (step_scan_over hp hi).symm.trans h
    have hle := hfit.2.1
    exact inv_scanning hinv.frame hinv.capacity hcode hs hfit (.inr ⟨rfl, Nat.le_antisymm hle (Nat.not_lt.1 hi)⟩)

theorem inv_step_asm {s t : State} (hinv : Inv s) (hp : s.phase = .asm) (h : step s = .next t) : Inv t := by
  have hs : s.status = .busy := hinv.busy (by simp [hp])
  have hcode := hinv.faultCode_eq_zero (by simp [hs])
  have hfit := hinv.session
  rw [SessionFits, hs, hp] at hfit
  obtain ⟨hfit, hend⟩ := hfit
  cases hk : s.kind with
  | decode =>
    have ho := o_add_four_le_of_scanFits hfit hk hend
    obtain ⟨-, e, -, he, -, he'⟩ := held_ends hinv.frame (by omega)
    cases (step_asm_decode hp hk he (by omega)).symm.trans h
    exact inv_done hinv.frame hinv.capacity hcode rfl rfl (resultFits_assembled hinv.frame hfit hk hend he')
  | full =>
    have hstep : step s = .next (assembleFull s) := by rw [step_asm hp, assemble, hk]; rfl
    cases hstep.symm.trans h
    exact inv_done hinv.frame hinv.capacity hcode rfl rfl (resultFits_assembleFull hinv.frame hfit hk hend)

theorem inv_step_busy {s t : State} (hinv : Inv s) (hp : s.phase ≠ .admission) (h : step s = .next t) : Inv t := by
  cases hph : s.phase with
  | admission => exact absurd hph hp
  | csx => exact inv_step_csx hinv hph h
  | scan => exact inv_step_scan hinv hph h
  | asm => exact inv_step_asm hinv hph h


/-- A command in progress ends in a good state, if it starts in one. -/
theorem inv_running {k : Nat} {s t : State} (hinv : Inv s) (h : Running k s t) : Inv t := by
  induction k generalizing s with
  | zero => cases h; exact hinv
  | succ k ih =>
    obtain ⟨hp, u, hu, h⟩ := h
    exact ih (inv_step_busy hinv hp hu) h

/-! ### The host's operations -/

theorem inv_enterBusy_csx {s : State} (hinv : Inv s) (hs : s.status = .fresh) (h5 : minLen ≤ s.len) :
    Inv (enterBusy .csx s) where
  frame := hinv.frame
  out := hinv.out
  capacity := hinv.capacity
  faultCode := hinv.faultCode_eq_zero (by simp [hs])
  phase := ⟨Phase.noConfusion, fun h => absurd rfl h⟩
  session := ⟨hinv.untouched hs, h5⟩

theorem inv_enterBusy_scan {s : State} (hinv : Inv s) (hs : s.status = .fresh) :
    Inv (enterBusy .scan (beginFull s)) :=
  inv_scanning hinv.frame hinv.capacity (hinv.faultCode_eq_zero (by simp [hs])) rfl
    (scanFits_beginFull (hinv.untouched hs)) (.inl rfl)

/-- `DECODE` keeps the invariant in either grain: as one transition it ends where the automaton does. -/
theorem inv_decode {s t : State} (hinv : Inv s) (hs : s.status = .fresh) (h : exec .decode s = .next t) : Inv t := by
  have hnf : s.status ≠ .fault := by simp [hs]
  cases hg : s.grain with
  | stepwise =>
    by_cases h5 : s.len < minLen
    · cases (execDecode_short hs h5).symm.trans h
      exact hinv.raise _
    · cases (exec_decode_admitted hs hg (Nat.not_lt.1 h5)).symm.trans h
      exact inv_enterBusy_csx hinv hs (Nat.not_lt.1 h5)
  | atomic =>
    rcases exec_decode_cases hinv.frame hg hs h with
      ⟨-, rfl⟩ | ⟨a, b, c, d, hx, ⟨-, rfl⟩ | ⟨hl, b0, e, hb, he, rfl⟩⟩
    · exact hinv.raise _
    · exact inv_raise (s := storeChecksum _ s) hinv.frame hinv.out hinv.capacity hnf _
    · obtain ⟨n, -, hrun⟩ := running_decode (s := enterBusy .csx s) rfl Status.noConfusion hinv.frame
        ⟨hx.long, hx.a, hx.b, hx.c, hx.d⟩ hl hb he
      exact inv_running (inv_enterBusy_csx hinv hs hx.long) hrun

/-- `FULL_DECODE` keeps the invariant in either grain. -/
theorem inv_fullDecode {s t : State} (hinv : Inv s) (hs : s.status = .fresh) (h : exec .fullDecode s = .next t) :
    Inv t := by
  have hbusy := inv_enterBusy_scan hinv hs
  rcases exec_fullDecode_cases hinv.frame hs h with rfl | rfl
  · exact hbusy
  · obtain ⟨n, -, hrun⟩ := running_fullDecode hinv.frame
    exact inv_running hbusy hrun

theorem inv_command {i : Instr} {s t : State} (hinv : Inv s)
    (hi : i ∈ [Instr.nop, .decode, .fullDecode, .reservedCmd]) (h : exec i s = .next t) : Inv t := by
  by_cases hs : s.status = .fresh
  · simp only [List.mem_cons, List.not_mem_nil, or_false] at hi
    rcases hi with rfl | rfl | rfl | rfl
    · cases h; exact hinv
    · exact inv_decode hinv hs h
    · exact inv_fullDecode hinv hs h
    · have hexec : exec .reservedCmd s = .next (raise (.reservedCommand 0b11) s) := if_neg (by simp [hs])
      cases hexec.symm.trans h
      exact hinv.raise _
  · rcases exec_command_not_fresh hi hs h with rfl | ⟨f, rfl⟩
    · exact hinv
    · exact hinv.raise f

/-- A session of a frame that fits is a good state (R190). -/
theorem inv_freshSession {f : List Byte} {s : State} (h : overCapacity s.cfg f.length = false) :
    Inv (freshSession f s) where
  frame := (loaded_held (s := freshSession f s) ⟨rfl, rfl⟩).2
  out := ⟨rfl, fun _ hc => absurd hc List.not_mem_nil⟩
  capacity := h
  faultCode := rfl
  phase := ⟨fun _ => Status.noConfusion, fun _ => rfl⟩
  session := ⟨rfl, rfl, rfl⟩

theorem inv_load {f : List Byte} {s t : State} (hinv : Inv s) (h : exec (.load f) s = .next t) : Inv t := by
  simp only [exec, execLoad] at h
  split at h
  next => cases h; exact hinv.raise _
  next hfit => cases h; exact inv_freshSession (Bool.eq_false_iff.2 hfit)

/-- What the host has asked for and been answered is no part of the invariant. -/
theorem Inv.withRequests {s : State} (h : Inv s) (rs : List Request) : Inv { s with requests := rs } :=
  ⟨h.frame, h.out, h.capacity, h.faultCode, h.phase, h.session⟩

theorem Inv.answer {s : State} (h : Inv s) (r : Reply) : Inv (answer r s) :=
  ⟨h.frame, h.out, h.capacity, h.faultCode, h.phase, h.session⟩

/-- Settles O50: with no command in progress, by what the oldest request stands for; else by the phase. -/
theorem stepKeepsInvariant : Obligations.StepKeepsInvariant := by
  intro s t hinv h
  by_cases hp : s.phase = .admission
  · rcases step_admit_next hp h with ⟨-, rfl⟩ | ⟨r, rest, i, -, -, he, hi⟩
    · exact hinv
    have hrest := hinv.withRequests rest
    rcases hi with ⟨f, rfl, -⟩ | ⟨sel, rfl⟩ | ⟨b, rfl⟩ | hi
    · exact inv_load hrest he
    · obtain ⟨r, rfl⟩ := exec_readOut_next sel _ t he
      exact hrest.answer r
    · obtain ⟨r, rfl⟩ := exec_encode_next b _ t he
      exact hrest.answer r
    · exact inv_command hrest hi he
  · exact inv_step_busy hinv hp h

end Sys2Proof.Machine

/-! PROOFS. `FULL_DECODE` (spec/44_full_decode.md R185): its result on a loaded frame, and on the frame of an encoder. -/

namespace Sys2Proof.Machine

/-- Settles O29: a loaded frame is held, so the scan meets no model fault and its result is known field by field. -/
theorem fullDecodeResult : Obligations.FullDecodeResult := by
  intro s f hs hg hload
  obtain ⟨hbytes, hheld⟩ := loaded_held hload
  rw [exec_fullDecode_ok hheld hs hg, fullResult_eq, hbytes, hload.2]

/-- The scan of a whole encoded frame: the start marker begins no window, the two stuffed strings scan back whatever follows, and the terminator stands alone (R186 item 2). -/
theorem scan_frameOf (cfg : Config) (p : List Byte) :
    scan (frameOf cfg p) = startMarker :: p ++ [hiByte (crcRun cfg p), loByte (crcRun cfg p), endMarker] := by
  generalize hc : [hiByte (crcRun cfg p), loByte (crcRun cfg p)] = c
  calc scan (frameOf cfg p)
      = scan (startMarker :: (stuff p ++ (stuff c ++ [endMarker]))) := by simp [frameOf, hc]
    _ = startMarker :: scan (stuff p ++ (stuff c ++ [endMarker])) := scan_not_lead (by decide) (by decide) _
    _ = startMarker :: (p ++ (c ++ [endMarker])) := by rw [scan_stuff_append, scan_stuff_append, scan_single]
    _ = _ := by simp [← hc]

/-- Settles O30: the result holds the scan of the frame, and `OUT` reads back what was written. -/
theorem fullDecodeOfEncodedFrame : Obligations.FullDecodeOfEncodedFrame := by
  intro s p hs hg hload
  refine ⟨_, fullDecodeResult s _ hs hg hload, rfl, ?_⟩
  rw [Memory.readBytes_writeBytes, scan_frameOf]

end Sys2Proof.Machine

/-! PROOFS. Session control (spec/45_session_control.md R190 to R195): `NOP` and the reserved code, `LOAD` within and over the capacity, the read-outs, and the step that runs a request. -/

namespace Sys2Proof.Machine

/-! ### `NOP` and the reserved code (R193, R194) -/

/-- Settles O31: the meaning of `NOP` is the state itself. -/
theorem nopChangesNothing : Obligations.NopChangesNothing := fun _ => rfl

/-- In every `STATE` the reserved code only raises: in `FAULT`, where it is ignored, a `raise` changes nothing (R246). -/
theorem exec_reservedCmd (s : State) : exec .reservedCmd s = .next (raise (.reservedCommand 0b11) s) := by
  by_cases hf : s.status = .fault
  · rw [exec, execReservedCmd, unlessFault_fault hf, raise_of_fault hf]
  · simp [exec, execReservedCmd, unlessFault, hf]

/-- Settles O32, by what `raise` does outside `FAULT` and in it. -/
theorem reservedCommandFaults : Obligations.ReservedCommandFaults := by
  refine fun s => ⟨fun hf => ⟨.admission, s.draws + 1, ?_⟩, fun hf => ?_⟩
  · rw [exec_reservedCmd, raise_of_not_fault hf]; rfl
  · rw [exec_reservedCmd, raise_of_fault hf]

/-! ### `LOAD` (R190, R191) -/

/-- Only a bounded capacity is exceeded. -/
theorem overCapacity_iff {cfg : Config} {n : Nat} :
    overCapacity cfg n = true ↔ ∃ m, cfg.maxLen = some m ∧ m.val < n := by
  cases hm : cfg.maxLen <;> simp [overCapacity, hm]

theorem exec_load_fits {f : List Byte} {s : State} (h : ∀ m, s.cfg.maxLen = some m → f.length ≤ m.val) :
    exec (.load f) s = .next (freshSession f s) := by
  have hcap : ¬ overCapacity s.cfg f.length = true := by
    rw [overCapacity_iff]
    rintro ⟨m, hm, hlt⟩
    exact absurd (h m hm) (Nat.not_le.2 hlt)
  rw [exec, execLoad, if_neg hcap]

theorem exec_load_over {f : List Byte} {s : State} {m : { n : Nat // 5 ≤ n }} (hm : s.cfg.maxLen = some m)
    (hlt : m.val < f.length) : exec (.load f) s = .next (raise (.lenOverCapacity f.length) s) := by
  rw [exec, execLoad, if_pos (overCapacity_iff.2 ⟨m, hm, hlt⟩)]

/-- A fresh session shows its frame, raw (R38). -/
theorem viewOf_freshSession (f : List Byte) (s : State) : viewOf (freshSession f s) = some ⟨f, .raw⟩ := by
  simp [viewOf]

/-- Settles O38: the fields of the session that `LOAD` constructs. -/
theorem loadConstructsSession : Obligations.LoadConstructsSession := by
  intro s f hfit
  exact ⟨freshSession f s, exec_load_fits hfit, Memory.read_ofBytes f, rfl, rfl, rfl, rfl, rfl, rfl, rfl,
    Memory.read_nil, rfl, rfl, viewOf_freshSession f s⟩

/-- Settles O40: over a bounded capacity `LOAD` raises, and an unbounded one fits every frame. -/
theorem loadOverCapacityFaults : Obligations.LoadOverCapacityFaults := by
  refine fun s f => ⟨fun m hm hlt => ⟨fun hf => ⟨.admission, s.draws + 1, ?_⟩, fun hf => ?_⟩, fun hnone => ?_⟩
  · rw [exec_load_over hm hlt, raise_of_not_fault hf]; rfl
  · rw [exec_load_over hm hlt, raise_of_fault hf]
  · exact ⟨freshSession f s, exec_load_fits (by simp [hnone]), rfl⟩

/-! ### Read-outs (R195) -/

/-- What a read-out answers is all it changes. -/
theorem exec_readOut_ok {sel : ReadSel} {s : State} {r : Reply} (h : readOut sel s = .ok r) :
    exec (.readOut sel) s = .next { s with reply := r } := by
  rw [exec, execReadOut, h]; rfl

/-- A written cell of `OUT` below `OUT_LEN` is read as it stands in `DONE`. -/
theorem shownOut_done {s : State} {a : Nat} {b : Byte} (hd : s.status = .done) (ha : a < s.outLen)
    (hb : Memory.read s.outMem a = some b) : shownOut s a = b := by
  rw [shownOut, if_pos ⟨hd, ha⟩, hb, Option.getD_some]

/-- Settles O42: in `DONE` each shown value is the register's. -/
theorem resultRegistersRead : Obligations.ResultRegistersRead := by
  refine fun s => ⟨exec_readOut_ok rfl, fun hd => ⟨exec_readOut_ok ?_, exec_readOut_ok ?_, exec_readOut_ok ?_,
    fun a b ha hb => exec_readOut_ok ?_⟩⟩
  · rw [readOut, shownOutLen, if_pos hd]
  · rw [readOut, shownCrc, if_pos hd]
  · rw [readOut, shownParsed, if_pos hd]
  · rw [readOut, shownOut_done hd ha hb]

/-- Every readable register and every cell of `OUT` has an answer (R37). -/
theorem readOut_answers {sel : ReadSel} (h : sel.readable = true) (s : State) : ∃ r, readOut sel s = .ok r := by
  cases sel with
  | out a => exact ⟨_, rfl⟩
  | reg n =>
    obtain ⟨h1, h5⟩ : 1 ≤ n ∧ n ≤ 5 := by simpa [ReadSel.readable] using h
    interval_cases n <;> exact ⟨_, rfl⟩

/-- Settles O43: a well-formed read-out has an answer, and the answer is all that changes. -/
theorem readOutHasNoSideEffect : Obligations.ReadOutHasNoSideEffect := by
  intro s sel hwf
  obtain ⟨r, hr⟩ := readOut_answers hwf s
  exact ⟨r, exec_readOut_ok hr⟩

/-! ### The step that runs a request (R192, log 9) -/

/-- Settles O45: the instruction each kind of request stands for. -/
theorem stepRunsHostRequest : Obligations.StepRunsHostRequest := fun _ _ hp =>
  ⟨step_idle hp, fun _ hr => step_request hp hr rfl, fun _ hr => step_request hp hr rfl,
    fun _ hr => step_request hp hr rfl, fun v hr => step_request hp hr (requestInstr_command v)⟩

end Sys2Proof.Machine

/-! PROOFS. The consumer (spec/48_cursor_reader_consumer.md): the view a session shows by `STATE`, the content of a decoded view, and a reader held across a decode command. -/

namespace Sys2Proof.Machine

/-! ### The view by `STATE` (R38) -/

/-- In `FRESH` the view is the frame. -/
theorem viewOf_fresh {s : State} (hf : FrameHeld s) (hs : s.status = .fresh) :
    viewOf s = some ⟨frameBytes s, s.mode⟩ := by
  have hread : Memory.readBytes s.inMem 0 s.len = some (frameBytes s) := by
    rw [← hf.2, hf.1, Memory.readBytes_ofBytes]
  rw [viewOf, hs, hread]; rfl

/-- In `DONE` the view is what `OUT` holds below `OUT_LEN`. -/
theorem viewOf_done {s : State} {v : List Byte} (hs : s.status = .done)
    (hv : Memory.readBytes s.outMem 0 s.outLen = some v) : viewOf s = some ⟨v, s.mode⟩ := by
  rw [viewOf, hs, hv]; rfl

/-- In `FAULT` there is no view. -/
theorem viewOf_fault {s : State} (hs : s.status = .fault) : viewOf s = none := by rw [viewOf, hs]

/-- A reader on a session shows its view and its mode. -/
theorem readerAt_shows {c : Nat} {s : State} {r : Reader} {v : View} (hv : viewOf s = some v)
    (hr : readerAt c s = some r) : r.view = v.bytes ∧ r.mode = v.mode := by
  rw [readerAt, hv, Option.map_some, Option.some.injEq] at hr
  subst hr
  exact ⟨rfl, rfl⟩

/-- Where `STATE` has changed, a held reader is the session's reader at the moved cursor (R206, log 30). -/
theorem follow_of_status_ne {s t : State} (h : s.status ≠ t.status) (moved : Nat → Nat) (r : Reader) :
    r.follow moved s t = readerAt (moved r.cur) t := by
  simp [Reader.follow, viewStands, h]

/-! ### The content of a decoded view (R213, R221, R224) -/

/-- The start byte is consumed from the front of a view. -/
theorem readStart_eq {r : Reader} {b : Byte} {rest : List Byte} (hv : r.view = b :: rest) (hc : r.cur = 0) :
    r.readStart = .ok ([b], { r with cur := 1 }) := by
  rw [Reader.readStart, readArray_eq, hv, hc, if_pos (by simp)]; rfl

/-- In decoded mode three bytes at the end are kept back. -/
theorem remaining_decoded {r : Reader} {n : Nat} (hm : r.mode = .decoded) (hl : r.view.length = r.cur + n + 3) :
    r.remaining = .ok n := by
  rw [Reader.remaining, Reader.reserved, hm, if_pos (show r.cur + 3 ≤ r.view.length by omega)]
  exact congrArg Except.ok (show r.view.length - r.cur - 3 = n by omega)

/-- Past the start byte, the content of a decoded view is what stands before its last three bytes, and nothing remains after it. -/
theorem readContent_decoded {r : Reader} {b x y e : Byte} {p : List Byte} (hm : r.mode = .decoded)
    (hv : r.view = b :: p ++ [x, y, e]) (hc : r.cur = 1) :
    r.remaining = .ok p.length ∧ r.readContent 0 = .ok (p, { r with cur := 1 + p.length }) ∧
      ({ r with cur := 1 + p.length } : Reader).remaining = .ok 0 := by
  have hl : r.view.length = 1 + p.length + 3 := by simp [hv]; omega
  have hrem : r.remaining = .ok p.length := remaining_decoded hm (by rw [hl, hc])
  have htake : (r.view.drop r.cur).take p.length = p := by simp [hv, hc]
  refine ⟨hrem, ?_, remaining_decoded hm hl⟩
  rw [(readContent_remaining hrem).1, htake, hc]

/-! ### What a decode command leaves to the consumer (spec/20_memory.md R57) -/

/-- A part of what was written is read back from where that part begins. -/
theorem Memory.readBytes_writeBytes_part (m : Memory) (a : Nat) (before bs after : List Byte) :
    Memory.readBytes (Memory.writeBytes m a (before ++ bs ++ after)) (a + before.length) bs.length = some bs := by
  refine Memory.readBytes_eq fun k hk => ?_
  have hin : a + before.length + k < a + (before ++ bs ++ after).length := by simp only [List.length_append]; omega
  rw [Memory.read_writeBytes, if_pos ⟨by omega, hin⟩, List.append_assoc,
    List.getElem?_append_right (by omega), List.getElem?_append_left (by omega)]
  congr 1; omega

/-- A completed `DECODE` has written the start byte, the `O` payload bytes, and three bytes after them. -/
theorem exec_decode_done {s t : State} (hf : FrameHeld s) (hr : ReadyAtomic s) (h : exec .decode s = .next t)
    (hd : t.status = .done) :
    ∃ (b x y e : Byte) (p : List Byte), t.outMem = Memory.writeBytes s.outMem 0 (b :: p ++ [x, y, e]) ∧
      t.outLen = p.length + 4 ∧ t.o = p.length ∧ t.mode = .decoded := by
  obtain ⟨hs, hg, hcrc⟩ := hr
  rcases exec_decode_cases hf hg hs h with ⟨-, rfl⟩ | ⟨a, b, c, d, -, ⟨-, rfl⟩ | ⟨-, b0, e, -, -, rfl⟩⟩
  · simp at hd
  · simp at hd
  · rw [decodeResult_eq b0 e _ s hcrc _ rfl]
    exact ⟨b0, _, _, e, _, rfl, rfl, rfl, rfl⟩

/-- Settles O58: the view of the completed session is start byte, payload and three bytes, which decoded mode keeps back. -/
theorem consumerContentIsThePayload : Obligations.ConsumerContentIsThePayload := by
  intro s t hf hr h hd
  obtain ⟨b, x, y, e, p, hout, hlen, ho, hmode⟩ := exec_decode_done hf hr h hd
  have hview : viewOf t = some ⟨b :: p ++ [x, y, e], .decoded⟩ := by
    rw [← hmode]
    exact viewOf_done hd (by rw [hout]; exact Memory.readBytes_written (by simp [hlen]))
  have hpay : Memory.readBytes t.outMem 1 p.length = some p := by
    rw [hout]; exact Memory.readBytes_writeBytes_part s.outMem 0 [b] p [x, y, e]
  rw [openReader, readerAt, hview, ho]
  obtain ⟨hrem, hread, hend⟩ := readContent_decoded (b := b) (x := x) (y := y) (e := e) (p := p)
    (r := ⟨b :: p ++ [x, y, e], 1, .decoded, shownCrc t, shownParsed t, (shownValid t).msb⟩) rfl rfl rfl
  exact ⟨_, _, _, b, p, rfl, readStart_eq rfl rfl, hrem, hread, hpay, hend⟩

/-- As one transition a decode command in `FRESH` faults, or completes with `OUT` readable below `OUT_LEN`. -/
theorem exec_decodeCommand_ends {i : Instr} {s t : State} (hi : i = .decode ∨ i = .fullDecode) (hf : FrameHeld s)
    (hs : s.status = .fresh) (hg : s.grain = .atomic) (h : exec i s = .next t) :
    t.status = .fault ∨ t.status = .done ∧ ∃ v, Memory.readBytes t.outMem 0 t.outLen = some v := by
  rcases hi with rfl | rfl
  · rcases exec_decode_cases hf hg hs h with ⟨-, rfl⟩ | ⟨a, b, c, d, -, ⟨-, rfl⟩ | ⟨-, b0, e, -, -, rfl⟩⟩
    · exact .inl (raise_status _ _)
    · exact .inl (raise_status _ _)
    · obtain ⟨bs, hout, hlen⟩ := decodeResult_outMem b0 e (fieldOf a b c d) s
      exact .inr ⟨rfl, bs, by rw [hout]; exact Memory.readBytes_written hlen.symm⟩
  · cases (exec_fullDecode_ok hf hs hg).symm.trans h
    rw [fullResult_eq]
    exact .inr ⟨rfl, _, Memory.readBytes_writeBytes _ _ _⟩

/-- Settles O59: a decode command leaves `FRESH`, so the held reader is renewed, from `OUT` or from no view. -/
theorem heldReaderSeesTheReplacedView : Obligations.HeldReaderSeesTheReplacedView := by
  rintro moved i s t r hi hf ⟨hs, hg, -⟩ hr h
  obtain ⟨hview, hmode⟩ := readerAt_shows (viewOf_fresh hf hs) hr
  refine ⟨hview, hmode, ?_⟩
  rcases exec_decodeCommand_ends hi hf hs hg h with hfault | ⟨hdone, v, hv⟩
  · refine ⟨fun hd => by simp [hfault] at hd, fun _ => ⟨hfault, ?_⟩⟩
    rw [follow_of_status_ne (by simp [hs, hfault]), readerAt, viewOf_fault hfault, Option.map_none]
  · refine ⟨fun _ => ?_, fun hd => absurd hdone hd⟩
    rw [follow_of_status_ne (by simp [hs, hdone]), readerAt, viewOf_done hdone hv]
    exact ⟨_, rfl, hv, rfl, rfl⟩

end Sys2Proof.Machine

/-! PROOFS. Faults (spec/60_exceptions.md): what `raise` writes, the order of the checks, and `FAULT`, where every command is ignored and which only `LOAD` leaves. -/

namespace Sys2Proof.Machine

/-! ### Fault entry (R241, R245) -/

/-- Settles O34: outside `FAULT` the code is that of R241's table, and either way the rest stays. -/
theorem raiseWritesStateAndCodeOnly : Obligations.RaiseWritesStateAndCodeOnly := by
  intro f s
  refine ⟨fun hf => raise_of_fault hf f, fun hf => ⟨raise_status f s, ?_⟩, ?_⟩
  · rw [raise_faultCode hf f]
    cases f <;> rfl
  · simp only [raise_cfg, raise_inMem, raise_len, raise_outMem, raise_outLen, raise_crc, raise_parsed, raise_valid,
      raise_mode, raise_escLen, raise_payLen, raise_hi, raise_lo, raise_i, raise_o, raise_requests, raise_reply,
      and_self]

/-! ### In `FAULT` (R246, R249) -/

/-- Settles O33, by what a command answers in `FAULT`. -/
theorem commandsAreIgnoredInFault : Obligations.CommandsAreIgnoredInFault :=
  fun _ _ hi hf => exec_command_fault hi hf

/-- Settles O54: in `FAULT` no command is in progress; a host operation ignores its command, raises to no effect or only answers, and else it is a `LOAD` that fits. -/
theorem onlyLoadLeavesFault : Obligations.OnlyLoadLeavesFault := by
  intro s t hp hs h
  have hadmit : s.phase = .admission := hp.2 (by simp [hs])
  rcases step_admit_next hadmit h with ⟨-, rfl⟩ | ⟨r, rest, i, hr, -, he, hi⟩
  · exact .inl ⟨hs, rfl⟩
  rcases hi with ⟨f, rfl, rfl⟩ | ⟨sel, rfl⟩ | ⟨b, rfl⟩ | hi
  · rcases exec_load_next he with rfl | rfl
    · exact .inl ⟨raise_status _ _, by rw [raise_of_fault (s := { s with requests := rest }) hs]⟩
    · exact .inr ⟨rfl, rfl, f, rest, hr, rfl⟩
  · obtain ⟨r, rfl⟩ := exec_readOut_next sel _ t he
    exact .inl ⟨hs, rfl⟩
  · obtain ⟨r, rfl⟩ := exec_encode_next b _ t he
    exact .inl ⟨hs, rfl⟩
  · cases (exec_command_fault (s := { s with requests := rest }) hi hs).symm.trans he
    exact .inl ⟨hs, rfl⟩

/-! ### The order of the checks (R248) -/

/-- An operation that raises outside `FAULT` leaves the block in `FAULT` with the code of what it raised. -/
theorem faults_of_raise {o : Out} {f : Trap} {s : State} (h : o = .next (raise f s)) (hf : s.status ≠ .fault) :
    ∃ t, o = .next t ∧ t.status = .fault ∧ t.faultCode = trapCode f :=
  ⟨_, h, raise_status f s, raise_faultCode hf f⟩

/-- A second `DECODE` of a session raises, whatever the frame's length is (R243). -/
theorem exec_decode_reused {s : State} (hf : s.status ≠ .fault) (hs : s.status ≠ .fresh) :
    exec .decode s = .next (raise (.sessionReuse s.status) s) := by
  rw [exec, execDecode, unlessFault, if_neg hf, if_pos hs]

/-- A second `FULL_DECODE` of a session raises (R243). -/
theorem exec_fullDecode_reused {s : State} (hf : s.status ≠ .fault) (hs : s.status ≠ .fresh) :
    exec .fullDecode s = .next (raise (.sessionReuse s.status) s) := by
  rw [exec, execFullDecode, unlessFault, if_neg hf, if_pos hs]

/-- Settles O35: each clause names the check that raises where those before it pass; the last raise is CSX's. -/
theorem faultPriority : Obligations.FaultPriority := by
  intro s
  refine ⟨fun hf i hi => exec_command_fault hi hf, fun hf => faults_of_raise (exec_reservedCmd s) hf,
    fun hf hs => ⟨faults_of_raise (exec_decode_reused hf hs) hf, faults_of_raise (exec_fullDecode_reused hf hs) hf⟩,
    fun hs h5 => faults_of_raise (execDecode_short hs h5) (by simp [hs]), ?_⟩
  intro hs hg a b c d e hload hab hcd
  obtain ⟨t, ht, hfault, hcode, -⟩ := decodeOfDoublyEscapedFiveBytesFaults s a b c d e hs hg hload hab hcd
  exact ⟨t, ht, hfault, hcode⟩

end Sys2Proof.Machine

/-! PROOFS. Reset and hazards (spec/70_reset_and_hazards.md R270, R272, R277): power-on, what `LOAD` forgets, and the host while a command is in progress. -/

namespace Sys2Proof.Machine

/-! ### While a command is in progress (R277) -/

/-- Settles O48: in each phase of a command the step keeps the frame and the host's side. -/
theorem hostHasNoMoveWhileBusy : Obligations.HostHasNoMoveWhileBusy := by
  intro s t hp h
  have hk : SessionKept s t := sessionKept_busy hp h
  exact ⟨hk.requests, hk.reply, hk.inMem, hk.len⟩

/-! ### Power-on (R270) -/

theorem loaded_reset : Loaded [] State.reset := ⟨rfl, rfl⟩

/-- `DECODE` at power-on finds the empty frame too short (R151). -/
theorem exec_decode_reset : exec .decode State.reset = .next (raise (.frameTooShort 0) State.reset) :=
  execDecode_short rfl (by decide)

/-- Settles O37: the reset values are R40's; `DECODE` raises on the empty frame, and `FULL_DECODE` emits its scan, no byte. -/
theorem powerOnIsTheEmptySession : Obligations.PowerOnIsTheEmptySession :=
  ⟨rfl, rfl, rfl, rfl, rfl, rfl, rfl, rfl, rfl,
    faults_of_raise exec_decode_reset Status.noConfusion,
    _, fullDecodeResult State.reset [] rfl rfl loaded_reset, rfl, rfl⟩

/-! ### After `LOAD` (R272) -/

/-- The session `LOAD` constructs takes only the parameters, the queue, the grain and the draw counter from the state before it. -/
theorem freshSession_congr {s s' : State} (hcfg : s.cfg = s'.cfg) (hreq : s.requests = s'.requests)
    (hgrain : s.grain = s'.grain) (hdraws : s.draws = s'.draws) (f : List Byte) :
    freshSession f s = freshSession f s' := by
  simp only [freshSession, hcfg, hreq, hgrain, hdraws]

/-- Settles O39: a frame that fits constructs a session from either state, and it is the same one. -/
theorem loadForgetsPreviousSession : Obligations.LoadForgetsPreviousSession := by
  intro s s' f hcfg hreq hgrain hdraws hfit
  calc exec (.load f) s = .next (freshSession f s) := exec_load_fits hfit
    _ = .next (freshSession f s') := by rw [freshSession_congr hcfg hreq hgrain hdraws]
    _ = exec (.load f) s' := (exec_load_fits (hcfg ▸ hfit)).symm

end Sys2Proof.Machine
